-- ==== Sys2Proof/Word.lean ====
section
/-! DEFINITION. The word types of the block. Every value of the block is an unsigned bit vector of stated width
(00_scope.md R10); nothing is signed. -/

namespace Sys2Proof

/-- A byte: 8 bits (00_scope.md R14). -/
abbrev Byte := BitVec 8

/-- A 16-bit value: the CRC register, a section address, a word count (00_scope.md R9). -/
abbrev Half := BitVec 16

/-- A command word, `CMD_WIDTH` = 32 bits (00_scope.md R9, 30_encoding.md R70). -/
abbrev Word := BitVec 32

end Sys2Proof
end

