-- ==== Sys2Proof/Config.lean ====
section
/-! DEFINITION. What is fixed for the block (00_scope.md R9), the section table's type and default contents
(40_frame_builder.md R101), and the free values: constants without a body, so that no proof can see them. -/

namespace Sys2Proof

/-- The document's closed enumeration of sections (30_encoding.md R78, in the order the document lists them). -/
inductive Section where
  | cellVoltages
  | cellTemperatures
  | batteryInfo
  | deviceInfo
  | deviceAddress
  deriving DecidableEq, Repr

/-- One 32-bit entry of `SECROM`: a register address and a canonical word count (10_state.md R31). -/
structure SectionEntry where
  addr : Half
  wc : Half
  deriving DecidableEq, Repr

/-- `SECROM`: five entries, one a section (10_state.md R31). -/
structure SectionTable where
  cellVoltages : SectionEntry
  cellTemperatures : SectionEntry
  batteryInfo : SectionEntry
  deviceInfo : SectionEntry
  deviceAddress : SectionEntry
  deriving DecidableEq, Repr

namespace Config

/-- `CRC_POLY`, used in the shift-right form (00_scope.md R9). -/
def crcPoly : Half := 0xA001#16

/-- `CRC_INIT` (00_scope.md R9). -/
def crcInit : Half := 0xFFFF#16

/-- `CRC_XOROUT`: what is combined with the register at the end, nothing (41_crc16.md R138). -/
def crcXorOut : Half := 0x0000#16

/-- `FUNC` = `FUNC_READ`, hardwired (10_state.md R25). -/
def funcRead : Byte := 0x03#8

/-- `FUNC_WRITE`: a named constant of the document that no part of the block uses (10_state.md R25). -/
def funcWrite : Byte := 0x06#8

/-- `FRAME_LEN` (00_scope.md R9). -/
def frameLen : Nat := 8

/-- `HDR_LEN`: the bytes the checksum covers (00_scope.md R9). -/
def hdrLen : Nat := 6

/-- The default contents of `SECROM` (40_frame_builder.md R101). A model argument by 00_scope.md R9: a theorem
about an arbitrary table holds whatever these ten numbers are (log 7). -/
def sections : SectionTable where
  cellVoltages := ⟨5000#16, 17#16⟩
  cellTemperatures := ⟨5017#16, 17#16⟩
  batteryInfo := ⟨5042#16, 6#16⟩
  deviceInfo := ⟨5122#16, 8#16⟩
  deviceAddress := ⟨5223#16, 1#16⟩

/-- FREE VALUE: what `CMDR` holds once the command is complete, any value (93_implementation_defined.md U11).
The argument is State's counter `draws` (log 4). -/
opaque deadLatch : Nat → Word

/-- FREE VALUE: a command completes this many clock edges plus one after its acceptance, so a finite positive number
that nothing else constrains (70_reset_and_hazards.md R202, 93_implementation_defined.md U9). The argument is State's
counter `draws` (log 5). -/
opaque commandEdges : Nat → Nat

end Config

end Sys2Proof
end

