-- ==== Sys2Proof/Machine/State.lean ====
section
/-! DEFINITION. The state of one block instance (10_state.md R20), its reset value (R38), and the reasons a step can stop. -/

namespace Sys2Proof.Machine

/-- A reason for the machine to stop. The block has NONE: no command, word or state stops it
(93_implementation_defined.md, end of Part 2; 60_exceptions.md R168), so this type has no constructor. What the spec calls
a fault is `FaultCode`, and taking one is a next state (log 10). -/
inductive Fault where
  deriving DecidableEq, Repr

/-- Why a step has no run. -/
inductive Refusal where
  /-- Raised by an arm of `exec` that has no meaning yet (safe). No arm of this model raises it. -/
  | notModelled (mnemonic : String)
  /-- Raised by `step` and `edge`, never by a command's meaning: something other than a reset happens before the first
  reset after power-up, to which the spec gives no run (70_reset_and_hazards.md R192, 93_implementation_defined.md U2; safe). -/
  | beforeFirstReset
  deriving DecidableEq, Repr

/-- The two synchronous faults of the block (60_exceptions.md R160). -/
inductive FaultCode where
  /-- Raised by a word that is no command (60_exceptions.md R162). -/
  | illegalCommand
  /-- Raised by `BUILD` and `BUILDW` with a section select of 5, 6 or 7 (60_exceptions.md R161). -/
  | unsupportedSection
  deriving DecidableEq, Repr

/-- What the host does next (70_reset_and_hazards.md R204): it resets the block, or it issues a command word. -/
inductive HostEvent where
  | reset
  | command (cmd : Word)
  deriving DecidableEq, Repr

/-- Which micro-step comes next (40_frame_builder.md R112, 41_crc16.md R133; log 8). The model's own: the spec numbers
the micro-steps but names no register that holds the place. -/
inductive Phase where
  /-- Waiting for a command; the next micro-step is M0, which only the host can cause. -/
  | idle
  /-- M1 -/
  | decode
  /-- M2 -/
  | load
  /-- M3 -/
  | select
  /-- M4 -/
  | bitStep
  /-- M5 -/
  | next
  /-- M6 -/
  | crcLow
  /-- M7 -/
  | crcHigh
  /-- M8 -/
  | done
  /-- `CRC.INIT`: the register is set (41_crc16.md R135). -/
  | streamInit
  /-- `CRC.BYTE`: the exclusive or (41_crc16.md R133). -/
  | streamXor
  /-- `CRC.BYTE`: a bit step (41_crc16.md R133). -/
  | streamBit
  /-- `CRC.INIT` and `CRC.BYTE`: the success exit (60_exceptions.md R167). -/
  | streamDone
  /-- M9 -/
  | release
  deriving DecidableEq, Repr

/-- Byte-indexed storage as (index, byte) pairs, in one canonical form (`Memory.wf`): indices strictly rising and no byte
equal to what an unlisted index reads as (log 9). -/
abbrev Memory := List Host.Cell

/-- The state of one block instance (10_state.md R20). -/
structure State where
  /-- `CRC`, the CRC register (10_state.md R21). -/
  crc : Half
  /-- `ADDR`, the battery address latch (R22). -/
  addr : Byte
  /-- `SADDR`, the section address latch (R23). -/
  saddr : Half
  /-- `WCNT`, the word count latch (R24). -/
  wcnt : Half
  /-- `FB[0..7]`, the frame buffer (R32). -/
  fb : Memory
  /-- `FVALID` (R27). -/
  fvalid : Bool
  /-- `EANY`, sticky (R28). -/
  eany : Bool
  /-- `ERR` (R29). -/
  err : BitVec 2
  /-- `ECMD` (R30). -/
  ecmd : Word
  /-- `SECROM`, the read-only section table (R31); nothing writes it (log 7). -/
  secrom : SectionTable
  /-- `IDX`, hidden (R33). -/
  idx : BitVec 4
  /-- `BITN`, hidden (R33). -/
  bitn : BitVec 4
  /-- `BUSY`, hidden but for `cmd_ready` (R33). -/
  busy : Bool
  /-- `CMDR`, hidden (R33). -/
  cmdr : Word
  /-- The model's own: the micro-step that comes next (log 8). -/
  phase : Phase
  /-- The model's own: clock edges before the edge that completes the command in execution (log 5). -/
  wait : Nat
  /-- The model's own: how many free values were drawn (log 12). -/
  draws : Nat
  /-- The model's own: a reset edge was applied since power-up (log 3). -/
  resetSeen : Bool
  /-- The model's own: what the host does next, first event first (log 2). -/
  port : List HostEvent
  deriving DecidableEq, Repr

/-- The state after reset (10_state.md R38), with the default section table and no host event pending. -/
def State.reset : State where
  crc := 0xFFFF#16
  addr := 0x00#8
  saddr := 0x0000#16
  wcnt := 0x0000#16
  fb := []
  fvalid := false
  eany := false
  err := 0#2
  ecmd := 0x00000000#32
  secrom := Config.sections
  idx := 0#4
  bitn := 0#4
  busy := false
  cmdr := 0x00000000#32
  phase := .idle
  wait := 0
  draws := 0
  resetSeen := true
  port := []

end Sys2Proof.Machine
end

