-- ==== Sys2Proof/Machine/Operands.lean ====
section
/-! DEFINITION. Operand forms: byte slices, zero-extension, the section select and its table (30_encoding.md R76, R78;
40_frame_builder.md R101), and the multiplexer (R104). -/

namespace Sys2Proof.Machine

/-- `v[15:8]`. -/
def hiByte (v : Half) : Byte := v.extractLsb' 8 8

/-- `v[7:0]`. -/
def loByte (v : Half) : Byte := v.extractLsb' 0 8

/-- `zext_16(b)` (00_scope.md R10). -/
def zext16 (b : Byte) : Half := b.setWidth 16

/-- The section a select value names; none for 5, 6 and 7 (30_encoding.md R78). -/
def sectionOf (sec : BitVec 3) : Option Section :=
  match sec.toNat with
  | 0 => some .cellVoltages
  | 1 => some .cellTemperatures
  | 2 => some .batteryInfo
  | 3 => some .deviceInfo
  | 4 => some .deviceAddress
  | _ => none

/-- The table entry of a section (10_state.md R31). -/
def tableEntry (T : SectionTable) : Section → SectionEntry
  | .cellVoltages => T.cellVoltages
  | .cellTemperatures => T.cellTemperatures
  | .batteryInfo => T.batteryInfo
  | .deviceInfo => T.deviceInfo
  | .deviceAddress => T.deviceAddress

/-- `sec_addr` (40_frame_builder.md R101). -/
def secAddr (T : SectionTable) (σ : Section) : Half := (tableEntry T σ).addr

/-- `sec_wc` (40_frame_builder.md R101). -/
def secWc (T : SectionTable) (σ : Section) : Half := (tableEntry T σ).wc

/-- `MUX(i)`: the byte of the frame the datapath registers give for index `i` (40_frame_builder.md R104). -/
def mux (s : State) (i : Fin 8) : Byte :=
  match i with
  | 0 => s.addr
  | 1 => Config.funcRead
  | 2 => hiByte s.saddr
  | 3 => loByte s.saddr
  | 4 => hiByte s.wcnt
  | 5 => loByte s.wcnt
  | 6 => loByte s.crc
  | 7 => hiByte s.crc

end Sys2Proof.Machine
end

