-- ==== Sys2Proof/Machine/Crc16.lean ====
section
/-! DEFINITION. The pure functions of the CRC-16 unit (41_crc16.md R131, R132, R134, R140). The order of the bit step is what
the spec supplies from general knowledge (93_implementation_defined.md G1 to G3; log 14). -/

namespace Sys2Proof.Machine

/-- The bit step (41_crc16.md R131). -/
def crc16Bit (c : Half) : Half :=
  if c.getLsbD 0 then (c >>> 1) ^^^ Config.crcPoly else c >>> 1

/-- `n` bit steps, one after the other. -/
def crc16Bits (n : Nat) (c : Half) : Half :=
  match n with
  | 0 => c
  | k + 1 => crc16Bits k (crc16Bit c)

/-- The byte step: the byte is combined with the low byte of the register, then exactly eight bit steps (41_crc16.md R132). -/
def crc16Byte (c : Half) (b : Byte) : Half := crc16Bits 8 (c ^^^ zext16 b)

/-- The register after the bytes of `m`, element 0 first, from `c`. -/
def crc16From (c : Half) (m : List Byte) : Half := m.foldl crc16Byte c

/-- The message function; nothing is applied at the end (41_crc16.md R134, R138). -/
def crc16 (m : List Byte) : Half := crc16From Config.crcInit m

/-- The table `T[j]` (41_crc16.md R140). -/
def crcTable (j : Byte) : Half := crc16Byte 0x0000#16 j

end Sys2Proof.Machine
end

