-- ==== Sys2Proof/Syntax.lean ====
section
/-! DEFINITION. The four commands of the block (30_encoding.md R74), one constructor a row of the opcode table. -/

namespace Sys2Proof

/-- A command with its operands as the decoder hands them on (30_encoding.md R75, R76). The section select keeps its
3 bits: the values 5, 6 and 7 decode and then fault in execution. -/
inductive Instr where
  /-- `CRC.INIT` (41_crc16.md R135). -/
  | crcInit
  /-- `CRC.BYTE b` (41_crc16.md R136). -/
  | crcByte (b : Byte)
  /-- `BUILD a, s` (40_frame_builder.md R105). -/
  | build (a : Byte) (sec : BitVec 3)
  /-- `BUILDW a, s, w` (40_frame_builder.md R106). -/
  | buildw (a : Byte) (sec : BitVec 3) (w : Half)
  deriving DecidableEq, Repr

end Sys2Proof
end

