-- ==== Sys2Proof/WellFormed.lean ====
section
/-! DEFINITION. Well-typed commands. The operand widths are in the types of `Instr`, so the one thing a command can get
wrong is its section select (60_exceptions.md R160, R161). The range checks of the assembler stand beside its syntax, in
Machine/Assembler.lean. -/

namespace Sys2Proof

/-- A section select that names a section (30_encoding.md R78). -/
def selectNamed (sec : BitVec 3) : Bool := decide (sec.toNat ≤ 4)

/-- Well-typed input in the words of 60_exceptions.md R160: a command whose section select, if it has one, is at
most 4. Commands that are not well typed are encoded, decoded and executed all the same; they raise
`UnsupportedSection`. -/
def Instr.wellTyped : Instr → Bool
  | .crcInit => true
  | .crcByte _ => true
  | .build _ sec => selectNamed sec
  | .buildw _ sec _ => selectNamed sec

end Sys2Proof
end

