-- ==== Sys2Proof/Decode.lean ====
section
/-! DEFINITION. The decoder, total on all 2^32 words (30_encoding.md R75), and after it the encoder (R82). -/

namespace Sys2Proof

/-- Why a word is no command (30_encoding.md R77 (a) and (b)). Both raise `IllegalCommand`; the block itself does not
tell them apart. -/
inductive Illegal where
  /-- `OP` is 0x0 or 0x5 to 0xF. -/
  | unassignedOp
  /-- `OP` is assigned and a must-be-zero bit of its format is 1. -/
  | mustBeZero
  deriving DecidableEq, Repr

/-- `OP`, bits 31 to 28 (30_encoding.md R70). -/
def opField (cmd : Word) : BitVec 4 := cmd.extractLsb' 28 4

/-- `SEC`, bits 26 to 24 (30_encoding.md R70). -/
def secField (cmd : Word) : BitVec 3 := cmd.extractLsb' 24 3

/-- `ADDR`, bits 23 to 16 (30_encoding.md R70). -/
def addrField (cmd : Word) : Byte := cmd.extractLsb' 16 8

/-- `WC`, bits 15 to 0 (30_encoding.md R70). -/
def wcField (cmd : Word) : Half := cmd.extractLsb' 0 16

/-- `BYTE`, bits 7 to 0 (30_encoding.md R70). -/
def byteField (cmd : Word) : Byte := cmd.extractLsb' 0 8

/-- A row of the opcode map: a word is the row's command exactly when `cmd & mask = matchBits` (30_encoding.md R74). -/
structure OpcodeRow where
  mnemonic : String
  mask : Word
  matchBits : Word
  deriving DecidableEq, Repr

/-- The row of `CRC.INIT` (30_encoding.md R74). -/
def rowCrcInit : OpcodeRow := ⟨"CRC.INIT", 0xFFFFFFFF#32, 0x10000000#32⟩

/-- The row of `CRC.BYTE` (30_encoding.md R74). -/
def rowCrcByte : OpcodeRow := ⟨"CRC.BYTE", 0xFFFFFF00#32, 0x20000000#32⟩

/-- The row of `BUILD` (30_encoding.md R74). -/
def rowBuild : OpcodeRow := ⟨"BUILD", 0xF800FFFF#32, 0x30000000#32⟩

/-- The row of `BUILDW` (30_encoding.md R74). -/
def rowBuildw : OpcodeRow := ⟨"BUILDW", 0xF8000000#32, 0x40000000#32⟩

/-- The opcode map (30_encoding.md R74). -/
def opcodeMap : List OpcodeRow := [rowCrcInit, rowCrcByte, rowBuild, rowBuildw]

/-- The word is the row's command (30_encoding.md R74). -/
def matchesRow (r : OpcodeRow) (cmd : Word) : Prop := cmd &&& r.mask = r.matchBits

/-- The row of a command. -/
def rowOf : Instr → OpcodeRow
  | .crcInit => rowCrcInit
  | .crcByte _ => rowCrcByte
  | .build _ _ => rowBuild
  | .buildw _ _ _ => rowBuildw

/-- Why a word that matches no row is refused (30_encoding.md R77). -/
def illegalReason (cmd : Word) : Illegal :=
  if opField cmd = 0#4 ∨ 4#4 < opField cmd then .unassignedOp else .mustBeZero

/-- Decoding (30_encoding.md R75). -/
def decode (cmd : Word) : Except Illegal Instr :=
  if cmd &&& rowCrcInit.mask = rowCrcInit.matchBits then .ok .crcInit
  else if cmd &&& rowCrcByte.mask = rowCrcByte.matchBits then .ok (.crcByte (byteField cmd))
  else if cmd &&& rowBuild.mask = rowBuild.matchBits then .ok (.build (addrField cmd) (secField cmd))
  else if cmd &&& rowBuildw.mask = rowBuildw.matchBits then
    .ok (.buildw (addrField cmd) (secField cmd) (wcField cmd))
  else .error (illegalReason cmd)

/-- The word of a command (30_encoding.md R82, "Encoding"). -/
def encode : Instr → Word
  | .crcInit => 0x10000000#32
  | .crcByte b => 0x20000000#32 ||| b.setWidth 32
  | .build a sec => 0x30000000#32 ||| sec.setWidth 32 <<< 24 ||| a.setWidth 32 <<< 16
  | .buildw a sec w => 0x40000000#32 ||| sec.setWidth 32 <<< 24 ||| a.setWidth 32 <<< 16 ||| w.setWidth 32

/-- The command of an opcode-table word given by its low `nbits` bits. A command is one 32-bit word, which has no byte
order (20_memory.md R53), so the table's numbering is the command word's own; there is no longer command. -/
def decodeTableWord (nbits w : Nat) : Option Instr :=
  if nbits ≤ 32 then
    match decode (BitVec.ofNat 32 (w % 2 ^ nbits)) with
    | .ok i => some i
    | .error _ => none
  else none

end Sys2Proof
end

