-- ==== Sys2Proof/Machine/Flags.lean ====
section
/-! DEFINITION. The status fields: the codes of `ERR` (60_exceptions.md R163), the success exit (R167) and `FVALID`
(10_state.md R27). `EANY` and `ECMD` are written by the fault entry alone, in Machine/Ops.lean. -/

namespace Sys2Proof.Machine

/-- The code of a fault as it stands in `ERR` (60_exceptions.md R163). -/
def errCode : FaultCode → BitVec 2
  | .illegalCommand => 1#2
  | .unsupportedSection => 2#2

/-- The success exit `ok`: `ERR <- 0`, and nothing else (60_exceptions.md R167). -/
def succeed (s : State) : State := { s with err := 0#2 }

/-- `FVALID <- 1` (10_state.md R27, 40_frame_builder.md R105). -/
def markValid (s : State) : State := { s with fvalid := true }

end Sys2Proof.Machine
end

