-- ==== Sys2Proof/Machine/Ops.lean ====
section
/-! DEFINITION. The named operations over the frame buffer and the registers, and the fault entry, the ONE operation by
which a fault is taken (60_exceptions.md R165). There is no return from a fault (R168). -/

namespace Sys2Proof.Machine

/-- What an index that is not listed reads as: the reset content 0x00 (10_state.md R32, R38; log 9). -/
def Memory.unlisted : Byte := 0x00#8

/-- The byte at an index. -/
def Memory.read (m : Memory) (a : Nat) : Byte :=
  match m with
  | [] => Memory.unlisted
  | (x, v) :: rest => if x = a then v else Memory.read rest a

/-- The list with one pair put in before the first larger index. -/
def Memory.insert (m : Memory) (a : Nat) (b : Byte) : Memory :=
  match m with
  | [] => [(a, b)]
  | (x, v) :: rest => if a < x then (a, b) :: (x, v) :: rest else (x, v) :: Memory.insert rest a b

/-- Storing a byte. A byte equal to what an unlisted index reads as is not listed. -/
def Memory.write (m : Memory) (a : Nat) (b : Byte) : Memory :=
  let others := m.filter fun c => c.1 != a
  if b = Memory.unlisted then others else Memory.insert others a b

/-- Indices strictly rising, all of the frame buffer (0 to 7), and no byte equal to what an unlisted index reads as:
then equal contents are equal lists (log 9). -/
def Memory.wf (m : Memory) : Bool :=
  decide (m.Pairwise fun c d => c.1 < d.1) &&
    m.all fun c => decide (c.1 < Config.frameLen) && decide (c.2 ≠ Memory.unlisted)

/-- `FB[i]` (00_scope.md R12). -/
def fbByte (s : State) (i : Fin 8) : Byte := Memory.read s.fb i.val

/-- `FB[i] <- b`. The index is 3 bits wide, so it is always one of the eight (20_memory.md R52, 40_frame_builder.md R114). -/
def storeByte (i : Fin 8) (b : Byte) (s : State) : State := { s with fb := Memory.write s.fb i.val b }

/-- `CRC <- v`. -/
def setCrc (v : Half) (s : State) : State := { s with crc := v }

/-- The operand latches of a build, written together (40_frame_builder.md R105, R106). -/
def loadOperands (a : Byte) (sa w : Half) (s : State) : State := { s with addr := a, saddr := sa, wcnt := w }

/-- Fault entry: `ERR`, `EANY` and `ECMD` are written and nothing else changes; control goes nowhere
(60_exceptions.md R165). -/
def raiseFault (k : FaultCode) (cmd : Word) (s : State) : State :=
  { s with err := errCode k, eany := true, ecmd := cmd }

/-- M0: the command word is sampled into `CMDR` and the block is busy (40_frame_builder.md R112, 70_reset_and_hazards.md R203). -/
def accept (cmd : Word) (s : State) : State := { s with busy := true, cmdr := cmd, phase := .decode }

/-- Acceptance and completion of a command as ONE step leave the hidden counters idle; `CMDR` held the word and is dead
from then on, so it holds any value (93_implementation_defined.md U11; log 4). -/
def retire (s : State) : State := { s with cmdr := Config.deadLatch s.draws, draws := s.draws + 1 }

/-- A rising clock edge with `rst = 1`: all storage takes its reset value (70_reset_and_hazards.md R190, 10_state.md R38).
`SECROM` is a constant; what the host does next and the count of free values drawn are no storage of the block (log 2, log 12). -/
def resetBlock (s : State) : State :=
  { State.reset with secrom := s.secrom, port := s.port, draws := s.draws }

end Sys2Proof.Machine
end

