-- ==== Sys2Proof/Machine/Crc.lean ====
section
/-! DEFINITION. The CRC-16 unit's commands, `CRC.INIT` and `CRC.BYTE` (41_crc16.md R135, R136). -/

namespace Sys2Proof.Machine

/-- `CRC.INIT`: start a CRC computation (41_crc16.md R135). -/
def execCrcInit (s : State) : Host.Outcome State Fault Refusal :=
  .next (succeed (setCrc Config.crcInit s))

/-- `CRC.BYTE b`: absorb one message byte (41_crc16.md R136). -/
def execCrcByte (b : Byte) (s : State) : Host.Outcome State Fault Refusal :=
  .next (succeed (setCrc (crc16Byte s.crc b) s))

end Sys2Proof.Machine
end

