-- ==== Sys2Proof/Machine/FrameBuilder.lean ====
section
/-! DEFINITION. The frame builder's commands, `BUILD` and `BUILDW` (40_frame_builder.md R105, R106). -/

namespace Sys2Proof.Machine

/-- One turn of the loop of `SEQ`: the selected byte goes into the buffer and into the CRC unit (40_frame_builder.md R105). -/
def emitHeaderByte (s : State) (i : Fin 8) : State :=
  setCrc (crc16Byte s.crc (mux s i)) (storeByte i (mux s i) s)

/-- A byte that goes into the buffer only: the two bytes of the checksum (40_frame_builder.md R104, R105). -/
def emitByte (s : State) (i : Fin 8) : State := storeByte i (mux s i) s

/-- `SEQ` (40_frame_builder.md R105). -/
def seq (s : State) : State :=
  markValid (emitByte (emitByte ([0, 1, 2, 3, 4, 5].foldl emitHeaderByte (setCrc Config.crcInit s)) 6) 7)

/-- A build with its word count chosen: the shared part of `BUILD` and `BUILDW` (40_frame_builder.md R105, R106). -/
def buildWith (a : Byte) (sa w : Half) (s : State) : State := succeed (seq (loadOperands a sa w s))

/-- `BUILD a, s`: the default request of a section (40_frame_builder.md R105). The word recorded by a fault is the command's
own (log 11). -/
def execBuild (a : Byte) (sec : BitVec 3) (s : State) : Host.Outcome State Fault Refusal :=
  match sectionOf sec with
  | none => .next (raiseFault .unsupportedSection (encode (.build a sec)) s)
  | some σ => .next (buildWith a (secAddr s.secrom σ) (secWc s.secrom σ) s)

/-- `BUILDW a, s, w`: a request with the word count given (40_frame_builder.md R106). -/
def execBuildw (a : Byte) (sec : BitVec 3) (w : Half) (s : State) : Host.Outcome State Fault Refusal :=
  match sectionOf sec with
  | none => .next (raiseFault .unsupportedSection (encode (.buildw a sec w)) s)
  | some σ => .next (buildWith a (secAddr s.secrom σ) w s)

end Sys2Proof.Machine
end

