-- ==== Sys2Proof/Machine/MicroStep.lean ====
section
/-! DEFINITION. The micro-step level: the steps M1 to M9 of a build (40_frame_builder.md R112) and those of the stream
commands (41_crc16.md R133). M0 is `accept`. The step that comes next is `phase`; the steps of `CRC.INIT` and `CRC.BYTE` around the byte
step are read from their rules (log 8). -/

namespace Sys2Proof.Machine

/-- M1, decode: a fault, or the first step of the command (40_frame_builder.md R112; 41_crc16.md R135, R136). -/
def microDecode (s : State) : State :=
  match decode s.cmdr with
  | .error _ => { raiseFault .illegalCommand s.cmdr s with phase := .release }
  | .ok .crcInit => { s with phase := .streamInit }
  | .ok (.crcByte _) => { s with phase := .streamXor }
  | .ok (.build _ sec) =>
    if sec.toNat > 4 then { raiseFault .unsupportedSection s.cmdr s with phase := .release }
    else { s with phase := .load }
  | .ok (.buildw _ sec _) =>
    if sec.toNat > 4 then { raiseFault .unsupportedSection s.cmdr s with phase := .release }
    else { s with phase := .load }

/-- The operands M2 loads: address, section address, word count (40_frame_builder.md R112). None where the word held is no
build of a known section, with which M2 is never reached. -/
def microOperands (s : State) : Option (Byte × Half × Half) :=
  match decode s.cmdr with
  | .ok (.build a sec) => (sectionOf sec).map fun σ => (a, secAddr s.secrom σ, secWc s.secrom σ)
  | .ok (.buildw a sec w) => (sectionOf sec).map fun σ => (a, secAddr s.secrom σ, w)
  | _ => none

/-- M2, load (40_frame_builder.md R112). -/
def microLoad (s : State) : State :=
  match microOperands s with
  | some (a, sa, w) =>
    { setCrc Config.crcInit (loadOperands a sa w s) with idx := 0#4, bitn := 0#4, phase := .select }
  | none => { s with phase := .release }

/-- The multiplexer's index: the low three bits of `IDX` (40_frame_builder.md R114: a 3-bit index). -/
def muxIndex (s : State) : Fin 8 := (s.idx.setWidth 3).toFin

/-- M3, select: the byte goes into the buffer and is combined with the register (40_frame_builder.md R112). -/
def microSelect (s : State) : State :=
  let b := mux s (muxIndex s)
  { setCrc (s.crc ^^^ zext16 b) (storeByte (muxIndex s) b s) with bitn := 0#4, phase := .bitStep }

/-- A bit step, repeated while `BITN < 8` in the phase `again`, then on to `after` (40_frame_builder.md R112 M4, 41_crc16.md R133). -/
def microBit (again after : Phase) (s : State) : State :=
  let n := s.bitn + 1
  { setCrc (crc16Bit s.crc) s with bitn := n, phase := if n.toNat < 8 then again else after }

/-- M5, next (40_frame_builder.md R112). -/
def microNext (s : State) : State :=
  let i := s.idx + 1
  { s with bitn := 0#4, idx := i, phase := if i.toNat < 6 then .select else .crcLow }

/-- M6, crc low (40_frame_builder.md R112). -/
def microCrcLow (s : State) : State := { storeByte 6 (loByte s.crc) s with idx := 7#4, phase := .crcHigh }

/-- M7, crc high (40_frame_builder.md R112). -/
def microCrcHigh (s : State) : State := { storeByte 7 (hiByte s.crc) s with idx := 8#4, phase := .done }

/-- M8, done (40_frame_builder.md R112). -/
def microDone (s : State) : State := { succeed (markValid s) with phase := .release }

/-- `CRC.INIT`: `CRC <- 0xFFFF` (41_crc16.md R135). -/
def microStreamInit (s : State) : State := { setCrc Config.crcInit s with phase := .streamDone }

/-- `CRC.BYTE`: the exclusive or (41_crc16.md R133). The byte is the one in the word held. -/
def microStreamXor (s : State) : State :=
  { setCrc (s.crc ^^^ zext16 (byteField s.cmdr)) s with bitn := 0#4, phase := .streamBit }

/-- The success exit of a stream command; `BITN` returns to 0 (41_crc16.md R133, 60_exceptions.md R167). -/
def microStreamDone (s : State) : State := { succeed s with bitn := 0#4, phase := .release }

/-- M9, idle: the counters return to 0 and the block is ready; `CMDR` is dead (40_frame_builder.md R112,
93_implementation_defined.md U11; log 4). -/
def microRelease (s : State) : State :=
  { retire s with idx := 0#4, bitn := 0#4, busy := false, phase := .idle, wait := 0 }

/-- One micro-step. While the block waits for a command there is none. -/
def microStep (s : State) : State :=
  match s.phase with
  | .idle => s
  | .decode => microDecode s
  | .load => microLoad s
  | .select => microSelect s
  | .bitStep => microBit .bitStep .next s
  | .next => microNext s
  | .crcLow => microCrcLow s
  | .crcHigh => microCrcHigh s
  | .done => microDone s
  | .streamInit => microStreamInit s
  | .streamXor => microStreamXor s
  | .streamBit => microBit .streamBit .streamDone s
  | .streamDone => microStreamDone s
  | .release => microRelease s

/-- `n` micro-steps. -/
def microRun (n : Nat) (s : State) : State :=
  match n with
  | 0 => s
  | k + 1 => microRun k (microStep s)

/-- More micro-steps than any command takes from any place: a build takes 66 after M0 (40_frame_builder.md R112: 6 select steps,
48 bit steps, 2 checksum steps, and the steps M1, M2, six times M5, M8, M9). -/
def microBound : Nat := 80

/-- The command in execution is carried to its end (70_reset_and_hazards.md R202). -/
def drain (s : State) : State := microRun microBound s

end Sys2Proof.Machine
end

