-- ==== Sys2Proof/Machine/Command.lean ====
section
/-! DEFINITION. The command level (00_scope.md R7, 70_reset_and_hazards.md R204): one command word, a list of them, and the step of a
machine whose host's next events stand in `port`. -/

namespace Sys2Proof.Machine

/-- `exec(cmd)` of 70_reset_and_hazards.md R204: a word that is a command has that command's meaning, any other raises
`IllegalCommand` (60_exceptions.md R162). -/
def command (cmd : Word) (s : State) : Host.Outcome State Fault Refusal :=
  match decode cmd with
  | .ok i => exec i s
  | .error _ => .next (raiseFault .illegalCommand cmd s)

/-- The commands of a list in the order they are accepted (20_memory.md R57). -/
def commands (l : List Word) (s : State) : Host.Outcome State Fault Refusal :=
  match l with
  | [] => .next s
  | cmd :: rest =>
    match command cmd s with
    | .next s' => commands rest s'
    | .fault r => .fault r
    | .refused r => .refused r

/-- Acceptance, execution and completion of a word as one atomic step (00_scope.md R7): `CMDR` holds the word while the command
executes and is dead after it. -/
def commandStep (cmd : Word) (s : State) : Host.Outcome State Fault Refusal :=
  match command cmd { s with cmdr := cmd } with
  | .next s' => .next (retire s')
  | .fault r => .fault r
  | .refused r => .refused r

/-- One step: the host's next event. A reset has priority over everything (70_reset_and_hazards.md R190). Before the first
reset nothing else has a run (R192; log 3). A command in execution completes before the next is accepted (R203; log 15). A host that
does nothing leaves the block as it is (R207; log 2). -/
def hostStep (s : State) : Host.Outcome State Fault Refusal :=
  match s.port with
  | .reset :: rest => .next (resetBlock { s with port := rest })
  | events =>
    if s.resetSeen = false then .refused .beforeFirstReset
    else if s.busy then .next (drain s)
    else
      match events with
      | .command cmd :: rest => commandStep cmd { s with port := rest }
      | _ => .next s

/-- The host issues the word next, to a block that is ready (log 18). -/
def issueWord (cmd : Word) (s : State) : State :=
  { s with port := .command cmd :: s.port, busy := false, resetSeen := true }

end Sys2Proof.Machine
end

