-- ==== Sys2Proof/Machine/Step.lean ====
section
/-! DEFINITION. One step of the block at command level. -/

namespace Sys2Proof.Machine

/-- One step (70_reset_and_hazards.md R204). -/
def step (s : State) : Host.Outcome State Fault Refusal := hostStep s

/-- The state whose next step accepts the word `w` of `nbits` bits; the bits above are zero (log 18). -/
def State.withFetchWord (s : State) (nbits w : Nat) : State := issueWord (BitVec.ofNat 32 (w % 2 ^ nbits)) s

end Sys2Proof.Machine
end

