-- ==== Sys2Proof/Machine/Assembler.lean ====
section
/-! DEFINITION. The assembler's syntax, its range checks, its encoding and its pseudo-instructions (30_encoding.md R82, R83), over
lines as data and over lines as text (log 13). It is no part of the block: it says which words a line of the spec's examples stands for. -/

namespace Sys2Proof.Machine

/-- `<section>`: one of the five assembler names, or an integer (30_encoding.md R82). -/
inductive SectionOperand where
  | named (σ : Section)
  | number (n : Nat)
  deriving DecidableEq, Repr

/-- A line: the four commands and the pseudo-instructions (30_encoding.md R82, R83). -/
inductive Source where
  | build (a : Nat) (sec : SectionOperand)
  | buildw (a : Nat) (sec : SectionOperand) (wc : Nat)
  | crcInit
  | crcByte (b : Nat)
  | request (a : Nat) (sec : SectionOperand) (wc : Option Nat)
  | crcBytes (bs : List Nat)
  | crc16 (bs : List Nat)
  | word (imm : Nat)
  deriving DecidableEq, Repr

/-- The select value of a section (30_encoding.md R78). -/
def selectOf : Section → Nat
  | .cellVoltages => 0
  | .cellTemperatures => 1
  | .batteryInfo => 2
  | .deviceInfo => 3
  | .deviceAddress => 4

/-- The select value of a section operand. -/
def operandSelect : SectionOperand → Nat
  | .named σ => selectOf σ
  | .number n => n

/-- `<addr>` and `<byte>` are 0 to 255 (30_encoding.md R82). -/
def byteInRange (n : Nat) : Bool := decide (n ≤ 255)

/-- `<wc>` is 0 to 65535 (30_encoding.md R82). -/
def wcInRange (n : Nat) : Bool := decide (n ≤ 65535)

/-- `<section>` as an integer is 0 to 7, so that faulting words can be written (30_encoding.md R82). -/
def sectionInRange (o : SectionOperand) : Bool := decide (operandSelect o ≤ 7)

/-- Every operand in its range; one outside is an assembly error, not a command (30_encoding.md R82). `CRC.BYTES` has at least
one byte and `.WORD` has 32 bits (R83). -/
def Source.wf : Source → Bool
  | .build a sec => byteInRange a && sectionInRange sec
  | .buildw a sec wc => byteInRange a && sectionInRange sec && wcInRange wc
  | .crcInit => true
  | .crcByte b => byteInRange b
  | .request a sec wc => byteInRange a && sectionInRange sec && wc.all wcInRange
  | .crcBytes bs => !bs.isEmpty && bs.all byteInRange
  | .crc16 bs => bs.all byteInRange
  | .word imm => decide (imm < 2 ^ 32)

/-- `BUILD` with operands in range. -/
def buildLine (a : Nat) (sec : SectionOperand) : Instr := .build (BitVec.ofNat 8 a) (BitVec.ofNat 3 (operandSelect sec))

/-- `BUILDW` with operands in range. -/
def buildwLine (a : Nat) (sec : SectionOperand) (wc : Nat) : Instr :=
  .buildw (BitVec.ofNat 8 a) (BitVec.ofNat 3 (operandSelect sec)) (BitVec.ofNat 16 wc)

/-- One `CRC.BYTE` a byte, in order (30_encoding.md R83). -/
def byteLines (bs : List Nat) : List Word := bs.map fun b => encode (.crcByte (BitVec.ofNat 8 b))

/-- The words a line stands for (30_encoding.md R82, R83). -/
def expand : Source → List Word
  | .build a sec => [encode (buildLine a sec)]
  | .buildw a sec wc => [encode (buildwLine a sec wc)]
  | .crcInit => [encode .crcInit]
  | .crcByte b => byteLines [b]
  | .request a sec none => [encode (buildLine a sec)]
  | .request a sec (some wc) => [encode (buildwLine a sec wc)]
  | .crcBytes bs => byteLines bs
  | .crc16 bs => encode .crcInit :: byteLines bs
  | .word imm => [BitVec.ofNat 32 imm]

/-- The words of a line, or an assembly error (30_encoding.md R82). -/
def assemble (l : Source) : Option (List Word) := if l.wf then some (expand l) else none

/-- The parts of a text between the separators. -/
def splitChars (sep : Char) (t : List Char) : List (List Char) :=
  match t with
  | [] => [[]]
  | c :: rest =>
    if c = sep then [] :: splitChars sep rest
    else
      match splitChars sep rest with
      | [] => [[c]]
      | part :: parts => (c :: part) :: parts

/-- White space inside a line. -/
def blank (c : Char) : Bool := c = ' ' || c = '\t' || c = '\r'

/-- A text without white space at its ends. -/
def trimmed (t : List Char) : List Char := ((t.dropWhile blank).reverse.dropWhile blank).reverse

/-- The value of a digit in base `base`. -/
def digitValue (base : Nat) (c : Char) : Option Nat :=
  let n := c.toNat
  let v :=
    if 48 ≤ n ∧ n ≤ 57 then n - 48
    else if 97 ≤ n ∧ n ≤ 102 then n - 87
    else if 65 ≤ n ∧ n ≤ 70 then n - 55
    else base
  if v < base then some v else none

/-- The value of a run of digits that follow the value `acc`. -/
def digitsValue (base acc : Nat) (t : List Char) : Option Nat :=
  match t with
  | [] => some acc
  | c :: rest => (digitValue base c).bind fun v => digitsValue base (acc * base + v) rest

/-- An integer, decimal or `0x` hexadecimal (30_encoding.md R82). -/
def integerText (t : List Char) : Option Nat :=
  match t with
  | [] => none
  | ['0', 'x'] => none
  | '0' :: 'x' :: digits => digitsValue 16 0 digits
  | digits => digitsValue 10 0 digits

/-- The assembler names of the sections (30_encoding.md R78). -/
def sectionNames : List (List Char × Section) :=
  [(['C', 'e', 'l', 'l', 'V', 'o', 'l', 't', 'a', 'g', 'e', 's'], .cellVoltages),
   (['C', 'e', 'l', 'l', 'T', 'e', 'm', 'p', 'e', 'r', 'a', 't', 'u', 'r', 'e', 's'], .cellTemperatures),
   (['B', 'a', 't', 't', 'e', 'r', 'y', 'I', 'n', 'f', 'o'], .batteryInfo),
   (['D', 'e', 'v', 'i', 'c', 'e', 'I', 'n', 'f', 'o'], .deviceInfo),
   (['D', 'e', 'v', 'i', 'c', 'e', 'A', 'd', 'd', 'r', 'e', 's', 's'], .deviceAddress)]

/-- A section operand. -/
def sectionText (t : List Char) : Option SectionOperand :=
  match sectionNames.find? fun p => p.1 = t with
  | some p => some (.named p.2)
  | none => (integerText t).map .number

/-- All the integers of a list of operands. -/
def integersText : List (List Char) → Option (List Nat)
  | [] => some []
  | t :: rest => (integerText t).bind fun n => (integersText rest).map fun ns => n :: ns

/-- The mnemonics of lines (30_encoding.md R82, R83). -/
inductive LineName where
  | build
  | buildw
  | crcInit
  | crcByte
  | request
  | crcBytes
  | crc16
  | word
  deriving DecidableEq, Repr

/-- The mnemonics in capitals. -/
def lineNames : List (List Char × LineName) :=
  [(['B', 'U', 'I', 'L', 'D'], .build), (['B', 'U', 'I', 'L', 'D', 'W'], .buildw),
   (['C', 'R', 'C', '.', 'I', 'N', 'I', 'T'], .crcInit), (['C', 'R', 'C', '.', 'B', 'Y', 'T', 'E'], .crcByte),
   (['R', 'E', 'Q', 'U', 'E', 'S', 'T'], .request), (['C', 'R', 'C', '.', 'B', 'Y', 'T', 'E', 'S'], .crcBytes),
   (['C', 'R', 'C', '1', '6'], .crc16), (['.', 'W', 'O', 'R', 'D'], .word)]

/-- A mnemonic, in capitals or not (30_encoding.md R82). -/
def lineName (t : List Char) : Option LineName :=
  (lineNames.find? fun p => p.1 = t.map Char.toUpper).map Prod.snd

/-- A line with its mnemonic and operands (30_encoding.md R82, R83). -/
def lineOf (name : LineName) (ops : List (List Char)) : Option Source :=
  match name, ops with
  | .build, [a, sec] => (integerText a).bind fun a => (sectionText sec).map fun sec => .build a sec
  | .buildw, [a, sec, wc] =>
    (integerText a).bind fun a => (sectionText sec).bind fun sec => (integerText wc).map fun wc => .buildw a sec wc
  | .crcInit, [] => some .crcInit
  | .crcByte, [b] => (integerText b).map .crcByte
  | .request, [a, sec] => (integerText a).bind fun a => (sectionText sec).map fun sec => .request a sec none
  | .request, [a, sec, wc] =>
    (integerText a).bind fun a =>
      (sectionText sec).bind fun sec => (integerText wc).map fun wc => .request a sec (some wc)
  | .crcBytes, bs => (integersText bs).map .crcBytes
  | .crc16, bs => (integersText bs).map .crc16
  | .word, [imm] => (integerText imm).map .word
  | _, _ => none

/-- The words of one line of text: none of them for an empty line or a comment, no answer for an assembly error
(30_encoding.md R82). -/
def assembleLine (t : List Char) : Option (List Word) :=
  let code := trimmed (t.takeWhile fun c => c != ';')
  let mnemonic := code.takeWhile fun c => !blank c
  let rest := trimmed (code.dropWhile fun c => !blank c)
  let ops := if rest.isEmpty then [] else (splitChars ',' rest).map trimmed
  if code.isEmpty then some []
  else (lineName mnemonic).bind fun name => (lineOf name ops).bind assemble

/-- The words of lines, in order. -/
def assembleLines : List (List Char) → Option (List Word)
  | [] => some []
  | t :: rest => (assembleLine t).bind fun ws => (assembleLines rest).map fun more => ws ++ more

/-- The words of a text, one command a line (30_encoding.md R82). -/
def assembleText (t : List Char) : Option (List Word) := assembleLines (splitChars '\n' t)

end Sys2Proof.Machine
end

