-- ==== Sys2Proof/Machine/Ports.lean ====
section
/-! DEFINITION. The output ports (10_state.md R35) and one rising edge's input ports (R34). -/

namespace Sys2Proof.Machine

/-- The input ports at one rising edge of `clk` (10_state.md R34). -/
structure PortIn where
  rst : Bool
  cmdValid : Bool
  cmd : Word
  deriving DecidableEq, Repr

/-- The output ports (10_state.md R35). -/
structure Outputs where
  cmdReady : BitVec 1
  frameO : BitVec 64
  fvalidO : BitVec 1
  crcO : BitVec 16
  addrO : BitVec 8
  saddrO : BitVec 16
  wcntO : BitVec 16
  errO : BitVec 2
  eanyO : BitVec 1
  ecmdO : BitVec 32
  deriving DecidableEq, Repr

/-- `frame_o`: `FB[0]` in bits 63 to 56, `FB[7]` in bits 7 to 0 (10_state.md R35). -/
def frameBits (s : State) : BitVec 64 :=
  fbByte s 0 ++ fbByte s 1 ++ fbByte s 2 ++ fbByte s 3 ++ fbByte s 4 ++ fbByte s 5 ++ fbByte s 6 ++ fbByte s 7

/-- What the ports show. While a command executes every port but `cmd_ready` shows any value
(70_reset_and_hazards.md R197): the argument `anything` is that FREE VALUE, and a statement holds for every one of it (log 6). -/
def outputs (anything : Outputs) (s : State) : Outputs :=
  if s.busy then { anything with cmdReady := 0#1 }
  else
    { cmdReady := 1#1
      frameO := frameBits s
      fvalidO := BitVec.ofBool s.fvalid
      crcO := s.crc
      addrO := s.addr
      saddrO := s.saddr
      wcntO := s.wcnt
      errO := s.err
      eanyO := BitVec.ofBool s.eany
      ecmdO := s.ecmd }

end Sys2Proof.Machine
end

