-- ==== Sys2Proof/Machine/Clock.lean ====
section
/-! DEFINITION. The clocked level: the ports of 10_state.md R34 at each rising edge of `clk`, with the handshake of
70_reset_and_hazards.md R203, the completion of R202 and the reset of R190 and R193. How many edges a command takes is the free value
`Config.commandEdges`; what the registers hold before the completing edge is shown on no output (log 5, log 6). -/

namespace Sys2Proof.Machine

/-- An edge at which the block executes a command: one of those before the last, or the one that completes it
(70_reset_and_hazards.md R202). The command word on the port has no effect (R203). -/
def busyEdge (s : State) : State :=
  match s.wait with
  | 0 => drain s
  | n + 1 => { s with wait := n }

/-- The edge of acceptance: `BUSY` becomes 1, and the number of edges to completion is drawn (70_reset_and_hazards.md R202, R203). -/
def acceptEdge (cmd : Word) (s : State) : State :=
  { accept cmd s with wait := Config.commandEdges s.draws, draws := s.draws + 1 }

/-- One rising edge of `clk`. -/
def edge (p : PortIn) (s : State) : Host.Outcome State Fault Refusal :=
  if p.rst then .next (resetBlock s)
  else if s.resetSeen = false then .refused .beforeFirstReset
  else if s.busy then .next (busyEdge s)
  else if p.cmdValid then .next (acceptEdge p.cmd s)
  else .next s

/-- Edges, first one first. -/
def edges (l : List PortIn) (s : State) : Host.Outcome State Fault Refusal :=
  match l with
  | [] => .next s
  | p :: rest =>
    match edge p s with
    | .next s' => edges rest s'
    | .fault r => .fault r
    | .refused r => .refused r

end Sys2Proof.Machine
end

