-- ==== Sys2Proof/Machine/Instances.lean ====
section
/-! DEFINITION. Several instances of the block, which share no state (20_memory.md R62, 60_exceptions.md R175; log 16). -/

namespace Sys2Proof.Machine

/-- The state after a command. A command always has one (60_exceptions.md R168); the other outcomes leave the state as it is. -/
def afterCommand (cmd : Word) (s : State) : State :=
  match command cmd s with
  | .next s' => s'
  | .fault _ => s
  | .refused _ => s

/-- A command issued to instance `k` of several; an instance that does not exist takes none. -/
def commandAt (k : Nat) (cmd : Word) (blocks : List State) : List State := blocks.modify k (afterCommand cmd)

/-- Commands issued to several instances, in the order given, each with the instance it goes to. -/
def interleaved (l : List (Nat × Word)) (blocks : List State) : List State :=
  l.foldl (fun bs kc => commandAt kc.1 kc.2 bs) blocks

/-- The commands of a list that go to instance `k`, in order. -/
def wordsFor (k : Nat) (l : List (Nat × Word)) : List Word := (l.filter fun kc => kc.1 == k).map Prod.snd

end Sys2Proof.Machine
end

