-- ==== Sys2Proof/Machine/Frame.lean ====
section
/-! DEFINITION. The pure frame function `build_request` (40_frame_builder.md R103) and the wire format (30_encoding.md R80). -/

namespace Sys2Proof.Machine

/-- The six header bytes: address, function code, section address and word count, both big-endian (40_frame_builder.md R103). -/
def header (a : Byte) (sa w : Half) : List Byte :=
  [a, Config.funcRead, hiByte sa, loByte sa, hiByte w, loByte w]

/-- A header followed by its checksum, low byte first (30_encoding.md R80, R81). -/
def frameOf (a : Byte) (sa w : Half) : List Byte :=
  let c := crc16 (header a sa w)
  header a sa w ++ [loByte c, hiByte c]

/-- `build_request(a, s, w)` (40_frame_builder.md R103). -/
def buildRequest (T : SectionTable) (a : Byte) (σ : Section) (w : Half) : List Byte := frameOf a (secAddr T σ) w

/-- The default form, with the canonical word count (40_frame_builder.md R103). -/
def buildRequestDefault (T : SectionTable) (a : Byte) (σ : Section) : List Byte := buildRequest T a σ (secWc T σ)

end Sys2Proof.Machine
end

