-- ==== Sys2Proof/Safety.lean ====
section
/-! DEFINITION. What the claims speak of: the idle state, the eight bytes of the buffer, the invariant of 10_state.md R37, and what a
command leaves alone (R36). -/

namespace Sys2Proof.Machine

/-- The block is idle: no command in execution, the hidden counters 0 (10_state.md R33). -/
def Idle (s : State) : Prop :=
  s.busy = false ∧ s.phase = .idle ∧ s.idx = 0#4 ∧ s.bitn = 0#4 ∧ s.wait = 0

/-- The bytes of the frame buffer in wire order. -/
def frameBytes (s : State) : List Byte :=
  [fbByte s 0, fbByte s 1, fbByte s 2, fbByte s 3, fbByte s 4, fbByte s 5, fbByte s 6, fbByte s 7]

/-- The table holds this register address for some section (10_state.md R23, R37 (b)). -/
def TableAddress (T : SectionTable) (v : Half) : Prop := ∃ σ, v = secAddr T σ

/-- Every frame buffer byte and every operand latch is at its reset value (10_state.md R37 (c)). -/
def NothingBuilt (s : State) : Prop :=
  s.addr = 0#8 ∧ s.saddr = 0#16 ∧ s.wcnt = 0#16 ∧ ∀ i : Fin 8, fbByte s i = 0#8

/-- The invariants of the idle state, 10_state.md R37 (a) to (f), with the canonical form of the frame buffer. -/
structure IdleInv (s : State) : Prop where
  idle : Idle s
  canonical : Memory.wf s.fb = true
  frame : s.fvalid = true → frameBytes s = frameOf s.addr s.saddr s.wcnt
  section_known : s.fvalid = true → TableAddress s.secrom s.saddr
  nothing_built : s.fvalid = false → NothingBuilt s
  err_legal : s.err ≠ 3#2
  err_sticky : s.err ≠ 0#2 → s.eany = true
  no_fault : s.eany = false → s.ecmd = 0#32 ∧ s.err = 0#2

/-- The fields that no command reads or writes: the section table, the hidden state and the model's own fields. -/
structure SameOutside (s t : State) : Prop where
  secrom : t.secrom = s.secrom
  idx : t.idx = s.idx
  bitn : t.bitn = s.bitn
  busy : t.busy = s.busy
  cmdr : t.cmdr = s.cmdr
  phase : t.phase = s.phase
  wait : t.wait = s.wait
  draws : t.draws = s.draws
  resetSeen : t.resetSeen = s.resetSeen
  port : t.port = s.port

/-- The fields a fault leaves alone (60_exceptions.md R165), every byte of the frame buffer among them. -/
structure SameDatapath (s t : State) : Prop where
  crc : t.crc = s.crc
  addr : t.addr = s.addr
  saddr : t.saddr = s.saddr
  wcnt : t.wcnt = s.wcnt
  fvalid : t.fvalid = s.fvalid
  bytes : ∀ a, Memory.read t.fb a = Memory.read s.fb a

/-- What a successful build leaves (40_frame_builder.md R105, R106; 10_state.md R36): `a`, `sa`, `w` in the latches, their frame in the
buffer, its checksum in `CRC`, and nothing else changed. The buffer is indices 0 to 7. -/
structure Built (a : Byte) (sa w : Half) (s t : State) : Prop where
  addr : t.addr = a
  saddr : t.saddr = sa
  wcnt : t.wcnt = w
  crc : t.crc = crc16 (header a sa w)
  bytes : frameBytes t = frameOf a sa w
  others : ∀ i, 8 ≤ i → Memory.read t.fb i = Memory.read s.fb i
  fvalid : t.fvalid = true
  err : t.err = 0#2
  eany : t.eany = s.eany
  ecmd : t.ecmd = s.ecmd
  rest : SameOutside s t

/-- The word raises a fault: it is no command, or its select names no section (60_exceptions.md R160). -/
def FaultingWord (cmd : Word) : Prop :=
  match decode cmd with
  | .ok i => i.wellTyped = false
  | .error _ => True

/-- The command is a build, of whichever section select. -/
def isBuild : Instr → Bool
  | .crcInit => false
  | .crcByte _ => false
  | .build _ _ => true
  | .buildw _ _ _ => true

/-- The word is a build that does not fault (10_state.md R27). -/
def BuildingWord (cmd : Word) : Prop :=
  ∃ i, decode cmd = .ok i ∧ isBuild i = true ∧ i.wellTyped = true

/-- The phases of the next `n` micro-steps, first one first (40_frame_builder.md R112). -/
def microPhases (n : Nat) (s : State) : List Phase :=
  match n with
  | 0 => []
  | k + 1 => s.phase :: microPhases k (microStep s)

/-- Where the hidden counters stand at each micro-step (10_state.md R26, R33): `IDX` and `BITN` never pass 8, `BUSY` is 1 exactly
while a command executes, and a counter is about to be advanced only while it is below its end. -/
structure MicroInv (s : State) : Prop where
  busy : s.busy = true ↔ s.phase ≠ .idle
  idx_range : s.idx.toNat ≤ 8
  bitn_range : s.bitn.toNat ≤ 8
  at_rest : s.phase = .idle ∨ s.phase = .decode → s.idx = 0#4 ∧ s.bitn = 0#4
  header : s.phase = .select ∨ s.phase = .bitStep ∨ s.phase = .next → s.idx.toNat ≤ 5
  bits : s.phase = .bitStep ∨ s.phase = .streamBit → s.bitn.toNat ≤ 7
  low : s.phase = .crcLow → s.idx = 6#4
  high : s.phase = .crcHigh → s.idx = 7#4
  done : s.phase = .done → s.idx = 8#4

end Sys2Proof.Machine
end

