-- ==== Sys2Proof/Certificates/Slice0/Obligations.lean ====
section
/-! DEFINITION. The statements for the provers. Each docstring names the rule of spec/ it formalises. `wait`, `draws`, `port`, `phase` and
`resetSeen` are the model's own fields (logs 2, 3, 5, 8, 12). -/

open Sys2Proof Sys2Proof.Machine

/-! Encodings. -/

/-- The formats N, D and B (30_encoding.md R71, R72, R73): which bits are the opcode, which are operands, which must be zero. -/
def Obligations.FormatsFixFieldsAndZeroBits : Prop :=
  ∀ cmd : Word,
    (decode cmd = .ok .crcInit ↔ cmd.extractLsb' 28 4 = 1#4 ∧ cmd.extractLsb' 0 28 = 0#28) ∧
    (∀ b, decode cmd = .ok (.crcByte b) ↔
      cmd.extractLsb' 28 4 = 2#4 ∧ cmd.extractLsb' 8 20 = 0#20 ∧ cmd.extractLsb' 0 8 = b) ∧
    (∀ a sec, decode cmd = .ok (.build a sec) ↔
      cmd.extractLsb' 28 4 = 3#4 ∧ cmd.getLsbD 27 = false ∧ cmd.extractLsb' 24 3 = sec ∧
        cmd.extractLsb' 16 8 = a ∧ cmd.extractLsb' 0 16 = 0#16) ∧
    (∀ a sec w, decode cmd = .ok (.buildw a sec w) ↔
      cmd.extractLsb' 28 4 = 4#4 ∧ cmd.getLsbD 27 = false ∧ cmd.extractLsb' 24 3 = sec ∧
        cmd.extractLsb' 16 8 = a ∧ cmd.extractLsb' 0 16 = w)

/-- The opcode map (30_encoding.md R74): a word is a row's command exactly when `cmd & mask = match`, no two rows share a word, and the
other values of `OP` are unassigned. -/
def Obligations.OpcodeMapDecides : Prop :=
  opcodeMap =
      [⟨"CRC.INIT", 0xFFFFFFFF#32, 0x10000000#32⟩, ⟨"CRC.BYTE", 0xFFFFFF00#32, 0x20000000#32⟩,
       ⟨"BUILD", 0xF800FFFF#32, 0x30000000#32⟩, ⟨"BUILDW", 0xF8000000#32, 0x40000000#32⟩] ∧
  ∀ cmd : Word,
    (∀ i, decode cmd = .ok i → rowOf i ∈ opcodeMap ∧ matchesRow (rowOf i) cmd) ∧
    (∀ r ∈ opcodeMap, matchesRow r cmd → ∃ i, decode cmd = .ok i ∧ rowOf i = r) ∧
    (∀ r ∈ opcodeMap, ∀ r' ∈ opcodeMap, matchesRow r cmd → matchesRow r' cmd → r = r') ∧
    (opField cmd = 0#4 ∨ 5 ≤ (opField cmd).toNat → decode cmd = .error .unassignedOp)

/-- How many of the 2^32 words decode to each command (the counts of 30_encoding.md R75 and 60_exceptions.md R162). -/
def Obligations.DecodeCounts : Prop :=
  Nat.card { cmd : Word // decode cmd = .ok .crcInit } = 1 ∧
  Nat.card { cmd : Word // ∃ b, decode cmd = .ok (.crcByte b) } = 256 ∧
  Nat.card { cmd : Word // ∃ a sec, decode cmd = .ok (.build a sec) } = 2048 ∧
  Nat.card { cmd : Word // ∃ a sec, decode cmd = .ok (.build a sec) ∧ sec.toNat ≤ 4 } = 1280 ∧
  Nat.card { cmd : Word // ∃ a sec w, decode cmd = .ok (.buildw a sec w) } = 134217728 ∧
  Nat.card { cmd : Word // ∃ a sec w, decode cmd = .ok (.buildw a sec w) ∧ sec.toNat ≤ 4 } = 83886080 ∧
  Nat.card { cmd : Word // ∃ i, decode cmd = .ok i } = 134220033

/-- Decoding the word of a command gives the command back, for every command and every operand value. -/
def Obligations.DecodeOfEncodeIsTheCommand : Prop := ∀ i : Instr, decode (encode i) = .ok i

/-- A word that decodes is the word of the command it decodes to: no bit of it is dropped. -/
def Obligations.EncodeOfDecodeIsTheWord : Prop :=
  ∀ (cmd : Word) (i : Instr), decode cmd = .ok i → encode i = cmd

/-- The reserved and illegal encodings (30_encoding.md R77 (a), (b), (c)) and what they record; every other word is a well-typed
command of the map. -/
def Obligations.ReservedEncodingsFault : Prop :=
  ∀ (cmd : Word) (s : State),
    let op := cmd.extractLsb' 28 4
    let illegal : Prop :=
      op = 0#4 ∨ 5 ≤ op.toNat ∨ (op = 1#4 ∧ cmd.extractLsb' 0 28 ≠ 0#28) ∨ (op = 2#4 ∧ cmd.extractLsb' 8 20 ≠ 0#20) ∨
        (op = 3#4 ∧ (cmd.getLsbD 27 = true ∨ cmd.extractLsb' 0 16 ≠ 0#16)) ∨ (op = 4#4 ∧ cmd.getLsbD 27 = true)
    let reservedSection : Prop := (op = 3#4 ∨ op = 4#4) ∧ 5 ≤ (cmd.extractLsb' 24 3).toNat
    (illegal → command cmd s = .next { s with err := 1#2, eany := true, ecmd := cmd }) ∧
    (¬ illegal → reservedSection → command cmd s = .next { s with err := 2#2, eany := true, ecmd := cmd }) ∧
    (¬ illegal → ¬ reservedSection → ∃ i, decode cmd = .ok i ∧ i.wellTyped = true)

/-- Words written out from the encodings decode to the commands they stand for (30_encoding.md R74, R82; a sanity statement). -/
def Obligations.SampleWordsDecode : Prop :=
  decode 0x10000000#32 = .ok .crcInit ∧ decode 0x20000031#32 = .ok (.crcByte 0x31#8) ∧
  decode 0x32010000#32 = .ok (.build 0x01#8 2#3) ∧ decode 0x41300002#32 = .ok (.buildw 0x30#8 1#3 2#16) ∧
  decode 0x00000000#32 = .error .unassignedOp ∧ decode 0x18000000#32 = .error .mustBeZero

/-- A line of the assembler with its operands in range stands for one word, given by the sum of its fields, which decodes to the
line's command; a line with an operand out of range is an assembly error (30_encoding.md R82). -/
def Obligations.AssembledLinesAreTheirCommands : Prop :=
  ∀ (a b wc : Nat) (o : SectionOperand),
    (a ≤ 255 ∧ operandSelect o ≤ 7 → ∃ cmd, assemble (.build a o) = some [cmd] ∧
      cmd.toNat = 0x30000000 + operandSelect o * 2 ^ 24 + a * 2 ^ 16 ∧
      decode cmd = .ok (.build (BitVec.ofNat 8 a) (BitVec.ofNat 3 (operandSelect o)))) ∧
    (¬ (a ≤ 255 ∧ operandSelect o ≤ 7) → assemble (.build a o) = none) ∧
    (a ≤ 255 ∧ operandSelect o ≤ 7 ∧ wc ≤ 65535 → ∃ cmd, assemble (.buildw a o wc) = some [cmd] ∧
      cmd.toNat = 0x40000000 + operandSelect o * 2 ^ 24 + a * 2 ^ 16 + wc ∧
      decode cmd = .ok (.buildw (BitVec.ofNat 8 a) (BitVec.ofNat 3 (operandSelect o)) (BitVec.ofNat 16 wc))) ∧
    (¬ (a ≤ 255 ∧ operandSelect o ≤ 7 ∧ wc ≤ 65535) → assemble (.buildw a o wc) = none) ∧
    (b ≤ 255 → ∃ cmd, assemble (.crcByte b) = some [cmd] ∧ cmd.toNat = 0x20000000 + b ∧
      decode cmd = .ok (.crcByte (BitVec.ofNat 8 b))) ∧
    (¬ b ≤ 255 → assemble (.crcByte b) = none) ∧
    assemble .crcInit = some [0x10000000#32]

/-- The expansions of the pseudo-instructions, and that `CRC16` of a byte list leaves the list's CRC in `CRC` (30_encoding.md R83). -/
def Obligations.PseudoInstructionsExpand : Prop :=
  ∀ (a wc imm : Nat) (o : SectionOperand) (bs : List Nat) (s : State),
    assemble (.request a o none) = assemble (.build a o) ∧
    assemble (.request a o (some wc)) = assemble (.buildw a o wc) ∧
    assemble (.crcBytes []) = none ∧
    ((∀ b ∈ bs, b ≤ 255) → bs ≠ [] →
      assemble (.crcBytes bs) = some (bs.map fun b => encode (.crcByte (BitVec.ofNat 8 b)))) ∧
    ((∀ b ∈ bs, b ≤ 255) → ∃ ws t,
      assemble (.crc16 bs) = some ws ∧ ws = encode .crcInit :: bs.map (fun b => encode (.crcByte (BitVec.ofNat 8 b))) ∧
      commands ws s = .next t ∧ t.crc = crc16 (bs.map (BitVec.ofNat 8))) ∧
    (imm < 2 ^ 32 → assemble (.word imm) = some [BitVec.ofNat 32 imm])

/-! The CRC-16 unit. -/

/-- The bit step with its worked examples (41_crc16.md R131). -/
def Obligations.BitStepTestsThenShifts : Prop :=
  (∀ c : Half, (c.getLsbD 0 = true → crc16Bit c = (c >>> 1) ^^^ 0xA001#16) ∧
    (c.getLsbD 0 = false → crc16Bit c = c >>> 1)) ∧
  crc16Bit 0xFFFF#16 = 0xDFFE#16 ∧ crc16Bit 0x0001#16 = 0xA001#16 ∧ crc16Bit 0x0002#16 = 0x0001#16 ∧
  crc16Bit 0x8000#16 = 0x4000#16 ∧ crc16Bit 0x0000#16 = 0x0000#16

/-- The byte step: the exclusive or, eight bit steps, a bijection on the register for each byte, and the worked examples
(41_crc16.md R132). -/
def Obligations.ByteStepIsEightBitStepsAndBijective : Prop :=
  (∀ (c : Half) (b : Byte),
    crc16Byte c b =
      crc16Bit (crc16Bit (crc16Bit (crc16Bit (crc16Bit (crc16Bit (crc16Bit (crc16Bit (c ^^^ b.setWidth 16))))))))) ∧
  (∀ b : Byte, Function.Bijective fun c : Half => crc16Byte c b) ∧
  (List.range 9).map (fun n => crc16Bits n (0xFFFF#16 ^^^ 0x0001#16)) =
    [0xFFFE#16, 0x7FFF#16, 0x9FFE#16, 0x4FFF#16, 0x87FE#16, 0x43FF#16, 0x81FE#16, 0x40FF#16, 0x807E#16] ∧
  crc16Byte 0xFFFF#16 0x01#8 = 0x807E#16 ∧ crc16Byte 0x0000#16 0x00#8 = 0x0000#16 ∧
  crc16Byte 0x0000#16 0x01#8 = 0xC0C1#16 ∧ crc16Byte 0xFFFF#16 0xFF#8 = 0x00FF#16 ∧
  crc16Byte 0xFFFF#16 0x00#8 = 0x40BF#16

/-- The message function as a recursion on the last byte, the empty message, no transformation of the result, and the worked example
(41_crc16.md R134, R137). -/
def Obligations.MessageFunctionAbsorbsInOrder : Prop :=
  crc16 [] = 0xFFFF#16 ∧
  (∀ (m : List Byte) (b : Byte), crc16 (m ++ [b]) = crc16Byte (crc16 m) b) ∧
  (List.range 7).map (fun n => crc16 ([0x01#8, 0x03#8, 0x00#8, 0x00#8, 0x00#8, 0x01#8].take n)) =
    [0xFFFF#16, 0x807E#16, 0x2140#16, 0xF020#16, 0xD8F1#16, 0x8419#16, 0x0A84#16] ∧
  ∀ s : State, exec .crcInit s = .next { s with crc := crc16 [], err := 0#2 }

/-- The bit step and the byte step with byte 0 are linear over exclusive or (the laws at the end of 41_crc16.md R139). -/
def Obligations.ByteStepIsLinear : Prop :=
  (∀ x y : Half, crc16Bit (x ^^^ y) = crc16Bit x ^^^ crc16Bit y ^^^ crc16Bit 0#16) ∧
  (∀ x y : Half, crc16Byte (x ^^^ y) 0#8 = crc16Byte x 0#8 ^^^ crc16Byte y 0#8) ∧
  (∀ (c : Half) (b : Byte), crc16Byte c b = crc16Byte (c ^^^ b.setWidth 16) 0#8)

/-- The table form absorbs a byte in one step and is equivalent to the bit form (41_crc16.md R140). -/
def Obligations.TableFormEqualsBitForm : Prop :=
  (∀ (c : Half) (b : Byte), crc16Byte c b = (c >>> 8) ^^^ crcTable ((c ^^^ b.setWidth 16).extractLsb' 0 8)) ∧
  crcTable 0#8 = 0x0000#16 ∧ crcTable 1#8 = 0xC0C1#16 ∧ crcTable 2#8 = 0xC181#16 ∧ crcTable 3#8 = 0x0140#16 ∧
  crcTable 0x80#8 = 0xA001#16 ∧ crcTable 0xFF#8 = 0x4040#16

/-- The residue: a message followed by its own checksum, low byte first, has CRC zero, and so has every frame (41_crc16.md R141). -/
def Obligations.MessageWithItsChecksumHasResidueZero : Prop :=
  (∀ c : Half, crc16Byte c (c.extractLsb' 0 8) = c >>> 8 ∧ crc16Byte (c >>> 8) (c.extractLsb' 8 8) = 0x0000#16) ∧
  (∀ m : List Byte, crc16 (m ++ [(crc16 m).extractLsb' 0 8, (crc16 m).extractLsb' 8 8]) = 0x0000#16) ∧
  (∀ (T : SectionTable) (a : Byte) (σ : Section) (w : Half), crc16 (buildRequest T a σ w) = 0x0000#16)

/-- `CRC.INIT` (41_crc16.md R135): its result, its illegal neighbours, that twice is the same as once, and the worked example. -/
def Obligations.CrcInitResult : Prop :=
  (∀ s : State, exec .crcInit s = .next { s with crc := 0xFFFF#16, err := 0#2 }) ∧
  (∀ (cmd : Word) (s : State), cmd.extractLsb' 28 4 = 1#4 →
    if cmd.extractLsb' 0 28 = 0#28 then
      cmd = 0x10000000#32 ∧ command cmd s = .next { s with crc := 0xFFFF#16, err := 0#2 }
    else command cmd s = .next { s with err := 1#2, eany := true, ecmd := cmd }) ∧
  (∀ s : State, commands [0x10000000#32, 0x10000000#32] s = commands [0x10000000#32] s) ∧
  (∀ s : State, s.crc = 0x4905#16 → ∃ t, command 0x10000000#32 s = .next t ∧ t.crc = 0xFFFF#16 ∧ t.fb = s.fb)

/-- `CRC.BYTE` (41_crc16.md R136): its result in every state, its illegal neighbours, the stream after `CRC.INIT`, and the worked
example. -/
def Obligations.CrcByteResult : Prop :=
  (∀ (b : Byte) (s : State), exec (.crcByte b) s = .next { s with crc := crc16Byte s.crc b, err := 0#2 }) ∧
  (∀ (cmd : Word) (s : State), cmd.extractLsb' 28 4 = 2#4 →
    if cmd.extractLsb' 8 20 = 0#20 then
      command cmd s = .next { s with crc := crc16Byte s.crc (cmd.extractLsb' 0 8), err := 0#2 }
    else command cmd s = .next { s with err := 1#2, eany := true, ecmd := cmd }) ∧
  (∀ (m : List Byte) (s : State), commands (encode .crcInit :: m.map fun b => encode (.crcByte b)) s =
    .next { s with crc := crc16 m, err := 0#2 }) ∧
  (∀ s : State, s.crc = 0xFFFF#16 → ∃ t, command 0x20000001#32 s = .next t ∧ t.crc = 0x807E#16)

/-- What the stream commands leave alone: everything but `CRC` and `ERR`, and every byte of the buffer reads as before
(10_state.md R36; 70_reset_and_hazards.md R195). -/
def Obligations.StreamCommandsFrame : Prop :=
  ∀ (i : Instr) (s t : State), isBuild i = false → exec i s = .next t →
    t.addr = s.addr ∧ t.saddr = s.saddr ∧ t.wcnt = s.wcnt ∧ t.fvalid = s.fvalid ∧ t.eany = s.eany ∧ t.ecmd = s.ecmd ∧
    SameOutside s t ∧ ∀ a, Memory.read t.fb a = Memory.read s.fb a

/-- The byte step as micro-steps, in a stream and in a build: nine of them give `crc16_byte` and leave `BITN` = 8, the next returns
`BITN` to 0 (41_crc16.md R133). -/
def Obligations.NineMicroStepsAbsorbAByte : Prop :=
  ∀ s : State,
    (s.phase = .streamXor → (microRun 1 s).crc = s.crc ^^^ zext16 (byteField s.cmdr) ∧ (microRun 1 s).bitn = 0#4 ∧
      (microRun 9 s).crc = crc16Byte s.crc (byteField s.cmdr) ∧ (microRun 9 s).bitn = 8#4 ∧ (microRun 10 s).bitn = 0#4) ∧
    (s.phase = .select → (microRun 1 s).crc = s.crc ^^^ zext16 (mux s (muxIndex s)) ∧ (microRun 1 s).bitn = 0#4 ∧
      (microRun 9 s).crc = crc16Byte s.crc (mux s (muxIndex s)) ∧ (microRun 9 s).bitn = 8#4 ∧ (microRun 10 s).bitn = 0#4)

/-! The frame builder. -/

/-- The section table's default contents and which selects name a section (40_frame_builder.md R101). -/
def Obligations.SectionTableDefaults : Prop :=
  (∀ sec : BitVec 3, (∃ σ, sectionOf sec = some σ) ↔ sec.toNat ≤ 4) ∧
  (sectionOf 0#3 = some .cellVoltages ∧ secAddr State.reset.secrom .cellVoltages = 0x1388#16 ∧ secWc State.reset.secrom .cellVoltages = 0x0011#16) ∧
  (sectionOf 1#3 = some .cellTemperatures ∧ secAddr State.reset.secrom .cellTemperatures = 0x1399#16 ∧ secWc State.reset.secrom .cellTemperatures = 0x0011#16) ∧
  (sectionOf 2#3 = some .batteryInfo ∧ secAddr State.reset.secrom .batteryInfo = 0x13B2#16 ∧ secWc State.reset.secrom .batteryInfo = 0x0006#16) ∧
  (sectionOf 3#3 = some .deviceInfo ∧ secAddr State.reset.secrom .deviceInfo = 0x1402#16 ∧ secWc State.reset.secrom .deviceInfo = 0x0008#16) ∧
  (sectionOf 4#3 = some .deviceAddress ∧ secAddr State.reset.secrom .deviceAddress = 0x1467#16 ∧ secWc State.reset.secrom .deviceAddress = 0x0001#16)

/-- The multiplexer's eight inputs; inputs 0 to 5 do not depend on `CRC` (40_frame_builder.md R104). -/
def Obligations.MultiplexerSelects : Prop :=
  ∀ s : State,
    mux s 0 = s.addr ∧ mux s 1 = 0x03#8 ∧ mux s 2 = s.saddr.extractLsb' 8 8 ∧ mux s 3 = s.saddr.extractLsb' 0 8 ∧
    mux s 4 = s.wcnt.extractLsb' 8 8 ∧ mux s 5 = s.wcnt.extractLsb' 0 8 ∧ mux s 6 = s.crc.extractLsb' 0 8 ∧
    mux s 7 = s.crc.extractLsb' 8 8 ∧ ∀ (i : Fin 8) (v : Half), i.val < 6 → mux { s with crc := v } i = mux s i

/-- The frame function's eight bytes, its checksum and its default form (40_frame_builder.md R103). -/
def Obligations.BuildRequestLayout : Prop :=
  ∀ (T : SectionTable) (a : Byte) (σ : Section) (w : Half),
    let sa := secAddr T σ
    let hdr := [a, 0x03#8, sa.extractLsb' 8 8, sa.extractLsb' 0 8, w.extractLsb' 8 8, w.extractLsb' 0 8]
    buildRequest T a σ w = hdr ++ [(crc16 hdr).extractLsb' 0 8, (crc16 hdr).extractLsb' 8 8] ∧
    buildRequestDefault T a σ = buildRequest T a σ (secWc T σ) ∧ (buildRequest T a σ w).length = 8

/-- `BUILD` (40_frame_builder.md R105): its result for every address, section and table, its two faults, and the worked example. -/
def Obligations.BuildResult : Prop :=
  (∀ (a : Byte) (sec : BitVec 3) (s : State), sec.toNat ≤ 4 → ∃ σ t, selectOf σ = sec.toNat ∧
    exec (.build a sec) s = .next t ∧ Built a (secAddr s.secrom σ) (secWc s.secrom σ) s t ∧
    frameBytes t = buildRequest s.secrom a σ (secWc s.secrom σ)) ∧
  (∀ (a : Byte) (sec : BitVec 3) (s : State), 5 ≤ sec.toNat →
    exec (.build a sec) s = .next { s with err := 2#2, eany := true, ecmd := encode (.build a sec) }) ∧
  (∀ (cmd : Word) (s : State), cmd.extractLsb' 28 4 = 3#4 → cmd.getLsbD 27 = true ∨ cmd.extractLsb' 0 16 ≠ 0#16 →
    command cmd s = .next { s with err := 1#2, eany := true, ecmd := cmd }) ∧
  ∃ t, command 0x30300000#32 State.reset = .next t ∧ t.addr = 0x30#8 ∧ t.saddr = 0x1388#16 ∧ t.wcnt = 0x0011#16 ∧
    t.crc = 0x4905#16 ∧ frameBytes t = [0x30#8, 0x03#8, 0x13#8, 0x88#8, 0x00#8, 0x11#8, 0x05#8, 0x49#8] ∧
    frameBits t = 0x3003138800110549#64 ∧ t.fvalid = true ∧ t.err = 0#2

/-- `BUILDW` (40_frame_builder.md R106): its result for every address, section, count and table, its two faults, that it agrees with
`BUILD` on the canonical count, and the worked example. -/
def Obligations.BuildwResult : Prop :=
  (∀ (a : Byte) (sec : BitVec 3) (w : Half) (s : State), sec.toNat ≤ 4 → ∃ σ t, selectOf σ = sec.toNat ∧
    exec (.buildw a sec w) s = .next t ∧ Built a (secAddr s.secrom σ) w s t ∧
    frameBytes t = buildRequest s.secrom a σ w ∧
    exec (.buildw a sec (secWc s.secrom σ)) s = exec (.build a sec) s) ∧
  (∀ (a : Byte) (sec : BitVec 3) (w : Half) (s : State), 5 ≤ sec.toNat →
    exec (.buildw a sec w) s = .next { s with err := 2#2, eany := true, ecmd := encode (.buildw a sec w) }) ∧
  (∀ (cmd : Word) (s : State), cmd.extractLsb' 28 4 = 4#4 → cmd.getLsbD 27 = true →
    command cmd s = .next { s with err := 1#2, eany := true, ecmd := cmd }) ∧
  ∃ t, command 0x41300002#32 State.reset = .next t ∧ t.addr = 0x30#8 ∧ t.saddr = 0x1399#16 ∧ t.wcnt = 0x0002#16 ∧
    t.crc = 0x8114#16 ∧ frameBytes t = [0x30#8, 0x03#8, 0x13#8, 0x99#8, 0x00#8, 0x02#8, 0x14#8, 0x81#8] ∧
    t.fvalid = true ∧ t.err = 0#2

/-- What a build leaves alone: a successful one writes no error register and no index outside 0 to 7, a faulting one nothing but the
error registers, and neither anything outside the architected state (10_state.md R36). -/
def Obligations.BuildCommandsFrame : Prop :=
  ∀ (i : Instr) (s t : State), isBuild i = true → exec i s = .next t →
    SameOutside s t ∧
    (i.wellTyped = true → t.eany = s.eany ∧ t.ecmd = s.ecmd ∧ ∀ a, 8 ≤ a → Memory.read t.fb a = Memory.read s.fb a) ∧
    (i.wellTyped = false → SameDatapath s t)

/-- Every word count and every address builds a frame without a fault, zero and all ones included, with the examples of
40_frame_builder.md R107 and R108. -/
def Obligations.EveryAddressAndCountBuilds : Prop :=
  (∀ (a : Byte) (sec : BitVec 3) (w : Half) (s : State), sec.toNat ≤ 4 → ∃ t,
    exec (.buildw a sec w) s = .next t ∧ t.err = 0#2 ∧ t.fvalid = true ∧ t.wcnt = w ∧ fbByte t 0 = a ∧
    fbByte t 4 = w.extractLsb' 8 8 ∧ fbByte t 5 = w.extractLsb' 0 8) ∧
  (∀ s : State, s.secrom = Config.sections → ∃ t0 t1 t2 t3,
    exec (.buildw 0x30#8 0#3 0x0000#16) s = .next t0 ∧ exec (.buildw 0x30#8 0#3 0xFFFF#16) s = .next t1 ∧
    exec (.build 0x00#8 0#3) s = .next t2 ∧ exec (.build 0xFF#8 0#3) s = .next t3 ∧
    frameBits t0 = 0x300313880000C545#64 ∧ frameBits t1 = 0x30031388FFFFC4F5#64 ∧
    frameBits t2 = 0x00031388001100B9#64 ∧ frameBits t3 = 0xFF031388001114B6#64)

/-- After a successful build, and until the next one, the buffer is a frame whose last two bytes are the CRC of the first six, low byte
first (40_frame_builder.md R109). -/
def Obligations.FrameHoldsUntilNextBuild : Prop :=
  ∀ (cmd : Word) (later : List Word) (s : State), BuildingWord cmd → (∀ x ∈ later, ¬ BuildingWord x) →
    ∃ t u, command cmd s = .next t ∧ commands later t = .next u ∧ frameBytes u = frameBytes t ∧
      frameBytes u = frameOf u.addr u.saddr u.wcnt ∧
      crc16 ((frameBytes u).take 6) = fbByte u 7 ++ fbByte u 6 ∧ fbByte u 1 = 0x03#8 ∧ crc16 (frameBytes u) = 0x0000#16

/-- A successful build depends on its word and on the section table only (40_frame_builder.md R110). -/
def Obligations.BuildIsHistoryFree : Prop :=
  ∀ (cmd : Word) (s s' : State), BuildingWord cmd → s.secrom = s'.secrom →
    ∃ t t', command cmd s = .next t ∧ command cmd s' = .next t' ∧
      t.addr = t'.addr ∧ t.saddr = t'.saddr ∧ t.wcnt = t'.wcnt ∧ t.crc = t'.crc ∧ frameBytes t = frameBytes t' ∧
      t.fvalid = t'.fvalid ∧ t.err = t'.err ∧ t.eany = s.eany ∧ t.ecmd = s.ecmd ∧
      (Memory.wf s.fb = true → Memory.wf s'.fb = true → t.fb = t'.fb)

/-- After a successful build `CRC` holds the frame's checksum whatever it held before, and the two checksum bytes take it to zero
(40_frame_builder.md R111). -/
def Obligations.BuildLeavesItsChecksumInCrc : Prop :=
  ∀ (cmd : Word) (s : State), BuildingWord cmd → ∃ t u,
    command cmd s = .next t ∧ t.crc = fbByte t 7 ++ fbByte t 6 ∧
    commands [encode (.crcByte (fbByte t 6)), encode (.crcByte (fbByte t 7))] t = .next u ∧ u.crc = 0x0000#16

/-- The shared register (70_reset_and_hazards.md R195): a build inside a stream makes the stream continue from the frame's checksum, and
no fault is raised. -/
def Obligations.BuildInsideStreamIsNotDetected : Prop :=
  ∀ (m : List Byte) (cmd : Word) (b : Byte) (s : State), BuildingWord cmd → ∃ t,
    commands (encode .crcInit :: (m.map (fun x => encode (.crcByte x)) ++ [cmd, encode (.crcByte b)])) s = .next t ∧
    t.crc = crc16Byte (fbByte t 7 ++ fbByte t 6) b ∧ t.err = 0#2 ∧ t.eany = s.eany ∧ t.ecmd = s.ecmd

/-- Only a successful build writes the operand latches, the buffer and `FVALID` (10_state.md R22, R23, R24, R27, R32). -/
def Obligations.OnlySuccessfulBuildsWriteTheFrame : Prop :=
  ∀ (cmd : Word) (s t : State), ¬ BuildingWord cmd → command cmd s = .next t →
    t.addr = s.addr ∧ t.saddr = s.saddr ∧ t.wcnt = s.wcnt ∧ t.fvalid = s.fvalid ∧
    ∀ a, Memory.read t.fb a = Memory.read s.fb a

/-! Faults. -/

/-- `UnsupportedSection` (60_exceptions.md R161): when it is raised, by which words alone, and what it records. -/
def Obligations.UnsupportedSectionFault : Prop :=
  ∀ (cmd : Word) (s : State),
    (∀ a sec, decode cmd = .ok (.build a sec) → 5 ≤ sec.toNat →
      command cmd s = .next { s with err := 2#2, eany := true, ecmd := cmd } ∧ secField cmd = sec) ∧
    (∀ a sec w, decode cmd = .ok (.buildw a sec w) → 5 ≤ sec.toNat →
      command cmd s = .next { s with err := 2#2, eany := true, ecmd := cmd } ∧ secField cmd = sec) ∧
    (∀ t, command cmd s = .next t → t.err = 2#2 →
      ∃ i, decode cmd = .ok i ∧ isBuild i = true ∧ 5 ≤ (secField cmd).toNat)

/-- The codes in `ERR` (60_exceptions.md R163): which words leave which code, and the word recorded. -/
def Obligations.ErrTellsTheFault : Prop :=
  ∀ (cmd : Word) (s : State), ∃ t, command cmd s = .next t ∧ t.err ≠ 3#2 ∧
    (t.err = 1#2 ↔ ∃ e, decode cmd = .error e) ∧
    (t.err = 2#2 ↔ ∃ i, decode cmd = .ok i ∧ i.wellTyped = false) ∧
    (t.err = 0#2 ↔ ¬ FaultingWord cmd) ∧ (t.err ≠ 0#2 → t.ecmd = cmd)

/-- Priority (60_exceptions.md R164): a word with a defect of form raises `IllegalCommand` whatever its select bits, and a reset edge
beats every command, accepted or offered. The list of events, and that a reset keeps its rest and `draws`, are the model's choice (logs 2
and 12). -/
def Obligations.FormBeforeContentAndResetFirst : Prop :=
  (∀ (cmd : Word) (s : State),
    cmd.getLsbD 27 = true ∨ (cmd.extractLsb' 28 4 = 3#4 ∧ cmd.extractLsb' 0 16 ≠ 0#16) →
    command cmd s = .next { s with err := 1#2, eany := true, ecmd := cmd }) ∧
  (∀ s : State, command 0x3D300000#32 s = .next { s with err := 1#2, eany := true, ecmd := 0x3D300000#32 } ∧
    command 0x35300000#32 s = .next { s with err := 2#2, eany := true, ecmd := 0x35300000#32 }) ∧
  (∀ (p : PortIn) (s : State), p.rst = true → edge p s = .next (resetBlock s)) ∧
  (∀ (rest : List HostEvent) (s : State), s.port = .reset :: rest → step s = .next (resetBlock { s with port := rest }))

/-- Fault entry (60_exceptions.md R165): a word that is no command, and a build of a reserved section, write `ERR`, `EANY` and `ECMD` and
nothing else. -/
def Obligations.FaultsArePrecise : Prop :=
  ∀ (cmd : Word) (s : State), FaultingWord cmd →
    ((∃ e, decode cmd = .error e) ∧ command cmd s = .next { s with err := 1#2, eany := true, ecmd := cmd }) ∨
    ((∃ i, decode cmd = .ok i ∧ isBuild i = true) ∧
      command cmd s = .next { s with err := 2#2, eany := true, ecmd := cmd })

/-- The success exit (60_exceptions.md R167): a command that does not fault leaves 0 in `ERR` and the other error registers alone. -/
def Obligations.SuccessClearsErrOnly : Prop :=
  ∀ (cmd : Word) (s : State), ¬ FaultingWord cmd → ∃ t,
    command cmd s = .next t ∧ t.err = 0#2 ∧ t.eany = s.eany ∧ t.ecmd = s.ecmd

/-- The error registers steer nothing (60_exceptions.md R168): with any other contents of them the next command does the same. -/
def Obligations.ErrorRegistersSteerNothing : Prop :=
  ∀ (cmd : Word) (s : State) (err : BitVec 2) (eany : Bool) (ecmd : Word), ∃ t t',
    command cmd s = .next t ∧ command cmd { s with err := err, eany := eany, ecmd := ecmd } = .next t' ∧
    t'.err = t.err ∧ SameDatapath t t' ∧ SameOutside t t' ∧ (s.eany = true → t.eany = true)

/-- `EANY` is set exactly when a word of the run has faulted (10_state.md R28), from any state. -/
def Obligations.StickyBitRecordsAnyFault : Prop :=
  ∀ (l : List Word) (s : State), ∃ t, commands l s = .next t ∧
    (t.eany = true ↔ s.eany = true ∨ ∃ cmd ∈ l, FaultingWord cmd)

/-- `ECMD` holds the most recent faulting word (10_state.md R30): later successful commands keep it. -/
def Obligations.EcmdHoldsLatestFaultingWord : Prop :=
  ∀ (before after : List Word) (cmd : Word) (s : State), FaultingWord cmd → (∀ x ∈ after, ¬ FaultingWord x) →
    ∃ t, commands (before ++ cmd :: after) s = .next t ∧ t.ecmd = cmd ∧ t.eany = true

/-- No command and no word stops the block (60_exceptions.md R160, R168), and after the first reset no step does. -/
def Obligations.NothingStopsTheBlock : Prop :=
  (∀ (l : List Word) (s : State), ∃ t, commands l s = .next t) ∧
  (∀ s : State, s.resetSeen = true → ∃ t, step s = .next t ∧ t.resetSeen = true) ∧
  (∀ (p : PortIn) (s : State), s.resetSeen = true → ∃ t, edge p s = .next t ∧ t.resetSeen = true)

/-- The hazard of 70_reset_and_hazards.md R199: after a faulting build the ports still show the earlier frame, and `ERR` is not 0. -/
def Obligations.StaleFrameStaysAfterFault : Prop :=
  ∀ (anything : Outputs) (cmd : Word) (s : State), FaultingWord cmd → s.busy = false → ∃ t,
    command cmd s = .next t ∧ (outputs anything t).frameO = (outputs anything s).frameO ∧
    (outputs anything t).fvalidO = (outputs anything s).fvalidO ∧ (outputs anything t).errO ≠ 0#2

/-! Reset, steps and levels. -/

/-- The reset values (10_state.md R38), after a reset edge in any state, a command in execution or not, and after the first reset as
after any other; the section table is the same before and after. -/
def Obligations.ResetLeavesResetValues : Prop :=
  ∀ (p : PortIn) (s : State), p.rst = true → ∃ t, edge p s = .next t ∧
    t.crc = 0xFFFF#16 ∧ t.addr = 0x00#8 ∧ t.saddr = 0x0000#16 ∧ t.wcnt = 0x0000#16 ∧
    (∀ i : Fin 8, fbByte t i = 0x00#8) ∧ frameBits t = 0x0000000000000000#64 ∧ t.fvalid = false ∧ t.err = 0#2 ∧
    t.eany = false ∧ t.ecmd = 0x00000000#32 ∧ t.idx = 0#4 ∧ t.bitn = 0#4 ∧ t.busy = false ∧ t.cmdr = 0x00000000#32 ∧
    t.secrom = s.secrom ∧ mux t 1 = 0x03#8

/-- Reset at an edge (70_reset_and_hazards.md R190, R193): whatever is offered or in execution, the same state; held longer, the same;
once released, the block accepts. That `port` and `draws` are kept is the model's choice (logs 2, 4 and 12). -/
def Obligations.ResetAbandonsTheCommand : Prop :=
  ∀ (p q : PortIn) (cmd : Word) (n : Nat) (s : State), p.rst = true → q.rst = true → ∃ t u,
    edge p s = .next t ∧ t = { State.reset with secrom := s.secrom, port := s.port, draws := s.draws } ∧
    edge p (microRun n (accept cmd s)) = .next u ∧ u = { t with draws := u.draws } ∧
    edge q t = .next t ∧ Idle t ∧
    ∀ r : PortIn, r.rst = false → r.cmdValid = true → ∃ v, edge r t = .next v ∧ v.busy = true ∧ v.cmdr = r.cmd

/-- Before the first reset nothing but a reset has a run (70_reset_and_hazards.md R192; the refusal is the model's form of it, log 3). -/
def Obligations.NoRunBeforeFirstReset : Prop :=
  (∀ s : State, s.resetSeen = false → (∀ rest, s.port ≠ .reset :: rest) → step s = .refused .beforeFirstReset) ∧
  (∀ (p : PortIn) (s : State), s.resetSeen = false → p.rst = false → edge p s = .refused .beforeFirstReset)

/-- A step runs the decoded command: `CMDR` holds the word while it executes, and is dead after it (70_reset_and_hazards.md R204; the
dead latch's value is free, log 4). -/
def Obligations.StepRunsTheDecodedCommand : Prop :=
  ∀ (cmd : Word) (rest : List HostEvent) (i : Instr) (s t : State),
    s.resetSeen = true → s.busy = false → s.port = .command cmd :: rest → decode cmd = .ok i →
    exec i { s with port := rest, cmdr := cmd } = .next t →
    step s = .next { t with cmdr := Config.deadLatch t.draws, draws := t.draws + 1 }

/-- A step on a word that is no command takes `IllegalCommand` (60_exceptions.md R162): a next state with the three error registers
written. -/
def Obligations.StepTakesIllegalCommand : Prop :=
  ∀ (cmd : Word) (rest : List HostEvent) (e : Illegal) (s : State),
    s.resetSeen = true → s.busy = false → s.port = .command cmd :: rest → decode cmd = .error e →
    step s = .next { s with
      port := rest, err := 1#2, eany := true, ecmd := cmd, cmdr := Config.deadLatch s.draws, draws := s.draws + 1 }

/-- Sequential consistency (20_memory.md R57): as many steps as the host has commands leave the architected state of those commands in
acceptance order. -/
def Obligations.StepsApplyCommandsInOrder : Prop :=
  ∀ (l : List Word) (s : State), s.resetSeen = true → s.busy = false → s.port = l.map .command → ∃ u v,
    Host.Core.run Sys2Proof.core l.length s = .next u ∧ commands l s = .next v ∧
    u = { v with port := [], cmdr := u.cmdr, draws := u.draws }

/-- The invariants of the idle state hold at reset (10_state.md R37, R38). -/
def Obligations.ResetStateMeetsInvariant : Prop := IdleInv State.reset

/-- Every step keeps the invariants of the idle state (10_state.md R37 (a) to (f)) and the canonical form of the frame buffer, from
every state that meets them. -/
def Obligations.EveryStepKeepsInvariant : Prop := ∀ s t : State, IdleInv s → step s = .next t → IdleInv t

/-- The section table is read-only (10_state.md R31): no step, no edge and no micro-step changes it, not even a reset. -/
def Obligations.NothingWritesTheSectionTable : Prop :=
  (∀ s t : State, step s = .next t → t.secrom = s.secrom) ∧
  (∀ (p : PortIn) (s t : State), edge p s = .next t → t.secrom = s.secrom)

/-- The micro-steps M0 to M9 and those of the stream commands carry an accepted word to exactly the command-level result
(40_frame_builder.md R112, 41_crc16.md R133), in every idle state and for all 2^32 words. -/
def Obligations.MicroStepsRefineTheCommand : Prop :=
  ∀ (cmd : Word) (s : State), Idle s → commandStep cmd s = .next (drain (accept cmd s))

/-- A build is 6 select steps, 48 bit steps and 2 checksum steps, whatever the operands, and a `CRC.BYTE` is 1 exclusive-or step and 8
bit steps (40_frame_builder.md R112, 70_reset_and_hazards.md R201). -/
def Obligations.MicroStepCounts : Prop :=
  ∀ (cmd : Word) (s : State), Idle s →
    (BuildingWord cmd →
      (microPhases 66 (accept cmd s)).count .select = 6 ∧ (microPhases 66 (accept cmd s)).count .bitStep = 48 ∧
      (microPhases 66 (accept cmd s)).count .crcLow = 1 ∧ (microPhases 66 (accept cmd s)).count .crcHigh = 1 ∧
      .idle ∉ microPhases 66 (accept cmd s) ∧ (microRun 66 (accept cmd s)).phase = .idle) ∧
    (∀ b, decode cmd = .ok (.crcByte b) →
      (microPhases 12 (accept cmd s)).count .streamXor = 1 ∧ (microPhases 12 (accept cmd s)).count .streamBit = 8 ∧
      .idle ∉ microPhases 12 (accept cmd s) ∧ (microRun 12 (accept cmd s)).phase = .idle)

/-- Every micro-step keeps the hidden counters in their ranges and `BUSY` true to the execution (10_state.md R26, R33), and acceptance
establishes it. -/
def Obligations.EveryMicroStepKeepsCounterRanges : Prop :=
  (∀ (cmd : Word) (s : State), Idle s → MicroInv s ∧ MicroInv (accept cmd s)) ∧
  (∀ s : State, MicroInv s → MicroInv (microStep s))

/-- Completion (70_reset_and_hazards.md R202): after acceptance there is a positive number of edges, which nothing offered on the ports
changes, before which the block is busy and after which it is idle in the command-level result. -/
def Obligations.AcceptedCommandsComplete : Prop :=
  ∀ (p : PortIn) (s : State), s.resetSeen = true → Idle s → p.rst = false → p.cmdValid = true → ∃ k, 1 ≤ k ∧
    (∀ l : List PortIn, (∀ q ∈ l, q.rst = false) → l.length < k → ∃ u, edges (p :: l) s = .next u ∧ u.busy = true) ∧
    (∀ l : List PortIn, (∀ q ∈ l, q.rst = false) → l.length = k → ∃ u v,
      edges (p :: l) s = .next u ∧ command p.cmd s = .next v ∧ Idle u ∧
      u = { v with cmdr := u.cmdr, draws := u.draws })

/-- Acceptance (70_reset_and_hazards.md R203): a word is accepted exactly at an edge with `rst` 0, `cmd_valid` 1 and `cmd_ready` 1, legal
or not; at any other edge `cmd` has no effect. -/
def Obligations.HandshakeAcceptsExactlyWhenReady : Prop :=
  ∀ (p : PortIn) (anything : Outputs) (s : State), s.resetSeen = true →
    (p.rst = false ∧ p.cmdValid = true ∧ (outputs anything s).cmdReady = 1#1 → ∃ t,
      edge p s = .next t ∧ t.busy = true ∧ t.cmdr = p.cmd ∧ (outputs anything t).cmdReady = 0#1) ∧
    (¬ (p.rst = false ∧ p.cmdValid = true ∧ (outputs anything s).cmdReady = 1#1) →
      ∀ cmd, edge { p with cmd := cmd } s = edge p s) ∧
    (p.rst = false ∧ p.cmdValid = false ∧ s.busy = false → edge p s = .next s)

/-- The output ports while idle are the architected state, and while a command executes only `cmd_ready` is determined
(10_state.md R35). -/
def Obligations.OutputPortsShowTheIdleState : Prop :=
  ∀ (anything : Outputs) (s : State),
    (s.busy = false →
      (outputs anything s).cmdReady = 1#1 ∧ (outputs anything s).crcO = s.crc ∧ (outputs anything s).addrO = s.addr ∧
      (outputs anything s).saddrO = s.saddr ∧ (outputs anything s).wcntO = s.wcnt ∧ (outputs anything s).errO = s.err ∧
      (outputs anything s).ecmdO = s.ecmd ∧
      ((outputs anything s).fvalidO = if s.fvalid then 1#1 else 0#1) ∧
      ((outputs anything s).eanyO = if s.eany then 1#1 else 0#1) ∧
      ∀ i : Fin 8, (outputs anything s).frameO.extractLsb' (56 - 8 * i.val) 8 = fbByte s i) ∧
    (s.busy = true → outputs anything s = { anything with cmdReady := 0#1 })

/-- What a wide view of a valid frame sees (20_memory.md R53): the header fields read straight, the checksum byte-swapped. -/
def Obligations.FrameOutReadsFields : Prop :=
  ∀ (anything : Outputs) (s : State), IdleInv s → s.fvalid = true →
    let f := (outputs anything s).frameO
    let c := crc16 (header s.addr s.saddr s.wcnt)
    f.extractLsb' 56 8 = s.addr ∧ f.extractLsb' 48 8 = 0x03#8 ∧ f.extractLsb' 32 16 = s.saddr ∧
    f.extractLsb' 16 16 = s.wcnt ∧ f.extractLsb' 8 8 = c.extractLsb' 0 8 ∧ f.extractLsb' 0 8 = c.extractLsb' 8 8 ∧
    f.extractLsb' 0 16 = c.extractLsb' 0 8 ++ c.extractLsb' 8 8

/-- Independent instances (20_memory.md R62): any interleaving gives each instance the result its own commands give alone. -/
def Obligations.InstancesShareNothing : Prop :=
  ∀ (l : List (Nat × Word)) (blocks : List State) (k : Nat),
    (interleaved l blocks)[k]? = (blocks[k]?).map fun s => (wordsFor k l).foldl (fun s cmd => afterCommand cmd s) s
end

