-- ==== Sys2Proof/Laws/Crc.lean ====
section
/-! SUPPORT. The small laws of the CRC functions and of the frame function. -/

namespace Sys2Proof.Machine

@[simp] theorem crc16Bits_zero (c : Half) : crc16Bits 0 c = c := rfl

@[simp] theorem crc16Bits_succ (n : Nat) (c : Half) : crc16Bits (n + 1) c = crc16Bits n (crc16Bit c) := rfl

@[simp] theorem crc16From_nil (c : Half) : crc16From c [] = c := rfl

@[simp] theorem crc16From_cons (c : Half) (b : Byte) (m : List Byte) :
    crc16From c (b :: m) = crc16From (crc16Byte c b) m := rfl

theorem crc16From_append (c : Half) (m m' : List Byte) :
    crc16From c (m ++ m') = crc16From (crc16From c m) m' := by
  simp [crc16From, List.foldl_append]

/-- The register after the header, byte by byte. -/
theorem crc16_header (a : Byte) (sa w : Half) :
    crc16 (header a sa w) =
      crc16Byte (crc16Byte (crc16Byte (crc16Byte (crc16Byte (crc16Byte Config.crcInit a) Config.funcRead)
        (hiByte sa)) (loByte sa)) (hiByte w)) (loByte w) := rfl

@[simp] theorem header_length (a : Byte) (sa w : Half) : (header a sa w).length = Config.hdrLen := rfl

@[simp] theorem frameOf_length (a : Byte) (sa w : Half) : (frameOf a sa w).length = Config.frameLen := rfl

/-- The eight bytes of a frame. -/
theorem frameOf_bytes (a : Byte) (sa w : Half) :
    frameOf a sa w =
      [a, Config.funcRead, hiByte sa, loByte sa, hiByte w, loByte w,
        loByte (crc16 (header a sa w)), hiByte (crc16 (header a sa w))] := rfl

end Sys2Proof.Machine
end

