-- ==== Sys2Proof/Laws/Memory.lean ====
section
/-! SUPPORT. The laws of the frame buffer's storage: a read after a write, and that a write keeps the canonical form, in which equal
contents are equal lists (log 9). -/

namespace Sys2Proof.Machine

@[simp] theorem Memory.read_nil (a : Nat) : Memory.read [] a = Memory.unlisted := rfl

@[simp] theorem Memory.read_cons (x : Nat) (v : Byte) (m : Memory) (a : Nat) :
    Memory.read ((x, v) :: m) a = if x = a then v else Memory.read m a := rfl

theorem Memory.read_filter_same (m : Memory) (a : Nat) :
    Memory.read (m.filter fun c => c.1 != a) a = Memory.unlisted := by
  induction m with
  | nil => rfl
  | cons c m ih =>
    obtain ⟨x, v⟩ := c
    by_cases h : x = a
    · simpa [List.filter_cons, h] using ih
    · simpa [List.filter_cons, h] using ih

theorem Memory.read_filter_other (m : Memory) (a a' : Nat) (h : a' ≠ a) :
    Memory.read (m.filter fun c => c.1 != a) a' = Memory.read m a' := by
  induction m with
  | nil => rfl
  | cons c m ih =>
    obtain ⟨x, v⟩ := c
    by_cases hx : x = a
    · have : x ≠ a' := fun e => h (e ▸ hx)
      simpa [List.filter_cons, hx, h.symm] using ih
    · by_cases h' : x = a'
      · simp [h', h]
      · simpa [List.filter_cons, hx, h'] using ih

theorem Memory.read_insert_other (m : Memory) (a a' : Nat) (b : Byte) (h : a' ≠ a) :
    Memory.read (Memory.insert m a b) a' = Memory.read m a' := by
  induction m with
  | nil => simp [Memory.insert, h.symm]
  | cons c m ih =>
    obtain ⟨x, v⟩ := c
    unfold Memory.insert
    split
    · simp [h.symm]
    · simp [ih]

theorem Memory.read_insert_same (m : Memory) (a : Nat) (b : Byte) (h : ∀ c ∈ m, c.1 ≠ a) :
    Memory.read (Memory.insert m a b) a = b := by
  induction m with
  | nil => simp [Memory.insert]
  | cons c m ih =>
    obtain ⟨x, v⟩ := c
    have hx : x ≠ a := h (x, v) (by simp)
    unfold Memory.insert
    split
    · simp
    · simpa [hx] using ih fun c hc => h c (by simp [hc])

theorem Memory.not_listed_filter (m : Memory) (a : Nat) : ∀ c ∈ m.filter (fun c => c.1 != a), c.1 ≠ a := by
  intro c hc
  simpa using (List.mem_filter.mp hc).2

/-- A read of the index just written gives the byte written. -/
@[simp] theorem Memory.read_write_same (m : Memory) (a : Nat) (b : Byte) :
    Memory.read (Memory.write m a b) a = b := by
  unfold Memory.write
  split
  · rename_i h
    rw [Memory.read_filter_same, h]
  · exact Memory.read_insert_same _ a b (Memory.not_listed_filter m a)

/-- A write leaves every other index alone. -/
theorem Memory.read_write_other (m : Memory) (a a' : Nat) (b : Byte) (h : a' ≠ a) :
    Memory.read (Memory.write m a b) a' = Memory.read m a' := by
  unfold Memory.write
  split
  · exact Memory.read_filter_other m a a' h
  · rw [Memory.read_insert_other _ a a' b h, Memory.read_filter_other m a a' h]

/-- A read after a write, both cases at once. -/
theorem Memory.read_write (m : Memory) (a a' : Nat) (b : Byte) :
    Memory.read (Memory.write m a b) a' = if a' = a then b else Memory.read m a' := by
  split
  · rename_i h
    rw [h, Memory.read_write_same]
  · rename_i h
    exact Memory.read_write_other m a a' b h

/-- The canonical form in words. -/
theorem Memory.wf_iff (m : Memory) :
    Memory.wf m = true ↔
      m.Pairwise (fun c d => c.1 < d.1) ∧ ∀ c ∈ m, c.1 < Config.frameLen ∧ c.2 ≠ Memory.unlisted := by
  simp [Memory.wf]

theorem Memory.insert_mem (m : Memory) (a : Nat) (b : Byte) (c : Host.Cell) :
    c ∈ Memory.insert m a b ↔ c = (a, b) ∨ c ∈ m := by
  induction m with
  | nil => simp [Memory.insert]
  | cons d m ih =>
    obtain ⟨x, v⟩ := d
    unfold Memory.insert
    split
    · simp
    · simp [ih]; tauto

theorem Memory.insert_sorted (m : Memory) (a : Nat) (b : Byte) (h : m.Pairwise fun c d => c.1 < d.1)
    (ha : ∀ c ∈ m, c.1 ≠ a) : (Memory.insert m a b).Pairwise fun c d => c.1 < d.1 := by
  induction m with
  | nil => simp [Memory.insert]
  | cons d m ih =>
    obtain ⟨x, v⟩ := d
    have hx : x ≠ a := ha (x, v) (by simp)
    obtain ⟨hlt, hm⟩ := List.pairwise_cons.mp h
    unfold Memory.insert
    split
    · rename_i hax
      refine List.pairwise_cons.mpr ⟨?_, h⟩
      intro c hc
      rcases List.mem_cons.mp hc with rfl | hc
      · exact hax
      · exact Nat.lt_trans hax (hlt c hc)
    · rename_i hax
      refine List.pairwise_cons.mpr ⟨?_, ih hm fun c hc => ha c (by simp [hc])⟩
      intro c hc
      rcases (Memory.insert_mem m a b c).mp hc with rfl | hc
      · show x < a
        omega
      · exact hlt c hc

/-- A write to an index of the frame buffer keeps the canonical form. -/
theorem Memory.write_wf (m : Memory) (a : Nat) (b : Byte) (ha : a < Config.frameLen) (h : Memory.wf m = true) :
    Memory.wf (Memory.write m a b) = true := by
  obtain ⟨hs, hv⟩ := (Memory.wf_iff m).mp h
  have hs' := hs.filter (fun c : Host.Cell => c.1 != a)
  unfold Memory.write
  split
  · exact (Memory.wf_iff _).mpr ⟨hs', fun c hc => hv c (List.mem_filter.mp hc).1⟩
  · rename_i hb
    refine (Memory.wf_iff _).mpr ⟨Memory.insert_sorted _ a b hs' (Memory.not_listed_filter m a), ?_⟩
    intro c hc
    rcases (Memory.insert_mem _ a b c).mp hc with rfl | hc
    · exact ⟨ha, hb⟩
    · exact hv c (List.mem_filter.mp hc).1

/-- Storing a byte of the frame keeps the canonical form. -/
theorem storeByte_wf (i : Fin 8) (b : Byte) (s : State) (h : Memory.wf s.fb = true) :
    Memory.wf (storeByte i b s).fb = true :=
  Memory.write_wf s.fb i.val b i.isLt h

/-- Every index below the first listed one is unlisted. -/
theorem Memory.read_unlisted (m : Memory) (a : Nat) (h : ∀ c ∈ m, a < c.1) : Memory.read m a = Memory.unlisted := by
  induction m with
  | nil => rfl
  | cons c m ih =>
    obtain ⟨x, v⟩ := c
    have : a < x := h (x, v) (by simp)
    have hx : x ≠ a := by omega
    simpa [hx] using ih fun c hc => h c (by simp [hc])

/-- In canonical form, equal contents are equal lists. -/
theorem Memory.ext_of_wf (m m' : Memory) (h : Memory.wf m = true) (h' : Memory.wf m' = true)
    (e : ∀ a, Memory.read m a = Memory.read m' a) : m = m' := by
  induction m generalizing m' with
  | nil =>
    cases m' with
    | nil => rfl
    | cons c m' =>
      obtain ⟨x, v⟩ := c
      have hv := (((Memory.wf_iff _).mp h').2 (x, v) (by simp)).2
      have hx := e x
      simp at hx
      exact absurd hx.symm hv
  | cons c m ih =>
    obtain ⟨x, v⟩ := c
    obtain ⟨hs, hv⟩ := (Memory.wf_iff _).mp h
    have hvx := (hv (x, v) (by simp)).2
    obtain ⟨hlt, hm⟩ := List.pairwise_cons.mp hs
    cases m' with
    | nil =>
      have hx := e x
      simp at hx
      exact absurd hx hvx
    | cons d m' =>
      obtain ⟨y, u⟩ := d
      obtain ⟨hs', hv'⟩ := (Memory.wf_iff _).mp h'
      have hvy := (hv' (y, u) (by simp)).2
      obtain ⟨hlt', hm'⟩ := List.pairwise_cons.mp hs'
      have hxy : x = y := by
        rcases Nat.lt_trichotomy x y with hl | hl | hl
        · have hx := e x
          have hn : Memory.read ((y, u) :: m') x = Memory.unlisted := by
            apply Memory.read_unlisted
            intro c hc
            rcases List.mem_cons.mp hc with rfl | hc
            · exact hl
            · exact Nat.lt_trans hl (hlt' c hc)
          rw [hn] at hx
          simp at hx
          exact absurd hx hvx
        · exact hl
        · have hy := e y
          have hn : Memory.read ((x, v) :: m) y = Memory.unlisted := by
            apply Memory.read_unlisted
            intro c hc
            rcases List.mem_cons.mp hc with rfl | hc
            · exact hl
            · exact Nat.lt_trans hl (hlt c hc)
          rw [hn] at hy
          simp at hy
          exact absurd hy.symm hvy
      subst hxy
      have hvu : v = u := by simpa using e x
      subst hvu
      have tails : m = m' := by
        refine ih m' ((Memory.wf_iff _).mpr ⟨hm, fun c hc => hv c (by simp [hc])⟩)
          ((Memory.wf_iff _).mpr ⟨hm', fun c hc => hv' c (by simp [hc])⟩) ?_
        intro a
        by_cases hax : x = a
        · subst hax
          rw [Memory.read_unlisted m x fun c hc => hlt c hc, Memory.read_unlisted m' x fun c hc => hlt' c hc]
        · simpa [hax] using e a
      rw [tails]

end Sys2Proof.Machine
end

