-- ==== Sys2Proof/Laws/State.lean ====
section
/-! SUPPORT. What each named operation leaves in each field: one lemma a field an operation, so that no later proof unfolds a record update. -/

namespace Sys2Proof.Machine

variable (s : State)

@[simp] theorem succeed_crc : (succeed s).crc = s.crc := rfl
@[simp] theorem succeed_addr : (succeed s).addr = s.addr := rfl
@[simp] theorem succeed_saddr : (succeed s).saddr = s.saddr := rfl
@[simp] theorem succeed_wcnt : (succeed s).wcnt = s.wcnt := rfl
@[simp] theorem succeed_fb : (succeed s).fb = s.fb := rfl
@[simp] theorem succeed_fvalid : (succeed s).fvalid = s.fvalid := rfl
@[simp] theorem succeed_eany : (succeed s).eany = s.eany := rfl
@[simp] theorem succeed_err : (succeed s).err = 0#2 := rfl
@[simp] theorem succeed_ecmd : (succeed s).ecmd = s.ecmd := rfl
@[simp] theorem succeed_secrom : (succeed s).secrom = s.secrom := rfl
@[simp] theorem succeed_idx : (succeed s).idx = s.idx := rfl
@[simp] theorem succeed_bitn : (succeed s).bitn = s.bitn := rfl
@[simp] theorem succeed_busy : (succeed s).busy = s.busy := rfl
@[simp] theorem succeed_cmdr : (succeed s).cmdr = s.cmdr := rfl
@[simp] theorem succeed_phase : (succeed s).phase = s.phase := rfl
@[simp] theorem succeed_wait : (succeed s).wait = s.wait := rfl
@[simp] theorem succeed_draws : (succeed s).draws = s.draws := rfl
@[simp] theorem succeed_resetSeen : (succeed s).resetSeen = s.resetSeen := rfl
@[simp] theorem succeed_port : (succeed s).port = s.port := rfl

@[simp] theorem markValid_crc : (markValid s).crc = s.crc := rfl
@[simp] theorem markValid_addr : (markValid s).addr = s.addr := rfl
@[simp] theorem markValid_saddr : (markValid s).saddr = s.saddr := rfl
@[simp] theorem markValid_wcnt : (markValid s).wcnt = s.wcnt := rfl
@[simp] theorem markValid_fb : (markValid s).fb = s.fb := rfl
@[simp] theorem markValid_fvalid : (markValid s).fvalid = true := rfl
@[simp] theorem markValid_eany : (markValid s).eany = s.eany := rfl
@[simp] theorem markValid_err : (markValid s).err = s.err := rfl
@[simp] theorem markValid_ecmd : (markValid s).ecmd = s.ecmd := rfl
@[simp] theorem markValid_secrom : (markValid s).secrom = s.secrom := rfl
@[simp] theorem markValid_idx : (markValid s).idx = s.idx := rfl
@[simp] theorem markValid_bitn : (markValid s).bitn = s.bitn := rfl
@[simp] theorem markValid_busy : (markValid s).busy = s.busy := rfl
@[simp] theorem markValid_cmdr : (markValid s).cmdr = s.cmdr := rfl
@[simp] theorem markValid_phase : (markValid s).phase = s.phase := rfl
@[simp] theorem markValid_wait : (markValid s).wait = s.wait := rfl
@[simp] theorem markValid_draws : (markValid s).draws = s.draws := rfl
@[simp] theorem markValid_resetSeen : (markValid s).resetSeen = s.resetSeen := rfl
@[simp] theorem markValid_port : (markValid s).port = s.port := rfl

@[simp] theorem storeByte_crc (i : Fin 8) (b : Byte) : (storeByte i b s).crc = s.crc := rfl
@[simp] theorem storeByte_addr (i : Fin 8) (b : Byte) : (storeByte i b s).addr = s.addr := rfl
@[simp] theorem storeByte_saddr (i : Fin 8) (b : Byte) : (storeByte i b s).saddr = s.saddr := rfl
@[simp] theorem storeByte_wcnt (i : Fin 8) (b : Byte) : (storeByte i b s).wcnt = s.wcnt := rfl
@[simp] theorem storeByte_fb (i : Fin 8) (b : Byte) : (storeByte i b s).fb = Memory.write s.fb i.val b := rfl
@[simp] theorem storeByte_fvalid (i : Fin 8) (b : Byte) : (storeByte i b s).fvalid = s.fvalid := rfl
@[simp] theorem storeByte_eany (i : Fin 8) (b : Byte) : (storeByte i b s).eany = s.eany := rfl
@[simp] theorem storeByte_err (i : Fin 8) (b : Byte) : (storeByte i b s).err = s.err := rfl
@[simp] theorem storeByte_ecmd (i : Fin 8) (b : Byte) : (storeByte i b s).ecmd = s.ecmd := rfl
@[simp] theorem storeByte_secrom (i : Fin 8) (b : Byte) : (storeByte i b s).secrom = s.secrom := rfl
@[simp] theorem storeByte_idx (i : Fin 8) (b : Byte) : (storeByte i b s).idx = s.idx := rfl
@[simp] theorem storeByte_bitn (i : Fin 8) (b : Byte) : (storeByte i b s).bitn = s.bitn := rfl
@[simp] theorem storeByte_busy (i : Fin 8) (b : Byte) : (storeByte i b s).busy = s.busy := rfl
@[simp] theorem storeByte_cmdr (i : Fin 8) (b : Byte) : (storeByte i b s).cmdr = s.cmdr := rfl
@[simp] theorem storeByte_phase (i : Fin 8) (b : Byte) : (storeByte i b s).phase = s.phase := rfl
@[simp] theorem storeByte_wait (i : Fin 8) (b : Byte) : (storeByte i b s).wait = s.wait := rfl
@[simp] theorem storeByte_draws (i : Fin 8) (b : Byte) : (storeByte i b s).draws = s.draws := rfl
@[simp] theorem storeByte_resetSeen (i : Fin 8) (b : Byte) : (storeByte i b s).resetSeen = s.resetSeen := rfl
@[simp] theorem storeByte_port (i : Fin 8) (b : Byte) : (storeByte i b s).port = s.port := rfl

@[simp] theorem setCrc_crc (v : Half) : (setCrc v s).crc = v := rfl
@[simp] theorem setCrc_addr (v : Half) : (setCrc v s).addr = s.addr := rfl
@[simp] theorem setCrc_saddr (v : Half) : (setCrc v s).saddr = s.saddr := rfl
@[simp] theorem setCrc_wcnt (v : Half) : (setCrc v s).wcnt = s.wcnt := rfl
@[simp] theorem setCrc_fb (v : Half) : (setCrc v s).fb = s.fb := rfl
@[simp] theorem setCrc_fvalid (v : Half) : (setCrc v s).fvalid = s.fvalid := rfl
@[simp] theorem setCrc_eany (v : Half) : (setCrc v s).eany = s.eany := rfl
@[simp] theorem setCrc_err (v : Half) : (setCrc v s).err = s.err := rfl
@[simp] theorem setCrc_ecmd (v : Half) : (setCrc v s).ecmd = s.ecmd := rfl
@[simp] theorem setCrc_secrom (v : Half) : (setCrc v s).secrom = s.secrom := rfl
@[simp] theorem setCrc_idx (v : Half) : (setCrc v s).idx = s.idx := rfl
@[simp] theorem setCrc_bitn (v : Half) : (setCrc v s).bitn = s.bitn := rfl
@[simp] theorem setCrc_busy (v : Half) : (setCrc v s).busy = s.busy := rfl
@[simp] theorem setCrc_cmdr (v : Half) : (setCrc v s).cmdr = s.cmdr := rfl
@[simp] theorem setCrc_phase (v : Half) : (setCrc v s).phase = s.phase := rfl
@[simp] theorem setCrc_wait (v : Half) : (setCrc v s).wait = s.wait := rfl
@[simp] theorem setCrc_draws (v : Half) : (setCrc v s).draws = s.draws := rfl
@[simp] theorem setCrc_resetSeen (v : Half) : (setCrc v s).resetSeen = s.resetSeen := rfl
@[simp] theorem setCrc_port (v : Half) : (setCrc v s).port = s.port := rfl

@[simp] theorem loadOperands_crc (a : Byte) (sa w : Half) : (loadOperands a sa w s).crc = s.crc := rfl
@[simp] theorem loadOperands_addr (a : Byte) (sa w : Half) : (loadOperands a sa w s).addr = a := rfl
@[simp] theorem loadOperands_saddr (a : Byte) (sa w : Half) : (loadOperands a sa w s).saddr = sa := rfl
@[simp] theorem loadOperands_wcnt (a : Byte) (sa w : Half) : (loadOperands a sa w s).wcnt = w := rfl
@[simp] theorem loadOperands_fb (a : Byte) (sa w : Half) : (loadOperands a sa w s).fb = s.fb := rfl
@[simp] theorem loadOperands_fvalid (a : Byte) (sa w : Half) : (loadOperands a sa w s).fvalid = s.fvalid := rfl
@[simp] theorem loadOperands_eany (a : Byte) (sa w : Half) : (loadOperands a sa w s).eany = s.eany := rfl
@[simp] theorem loadOperands_err (a : Byte) (sa w : Half) : (loadOperands a sa w s).err = s.err := rfl
@[simp] theorem loadOperands_ecmd (a : Byte) (sa w : Half) : (loadOperands a sa w s).ecmd = s.ecmd := rfl
@[simp] theorem loadOperands_secrom (a : Byte) (sa w : Half) : (loadOperands a sa w s).secrom = s.secrom := rfl
@[simp] theorem loadOperands_idx (a : Byte) (sa w : Half) : (loadOperands a sa w s).idx = s.idx := rfl
@[simp] theorem loadOperands_bitn (a : Byte) (sa w : Half) : (loadOperands a sa w s).bitn = s.bitn := rfl
@[simp] theorem loadOperands_busy (a : Byte) (sa w : Half) : (loadOperands a sa w s).busy = s.busy := rfl
@[simp] theorem loadOperands_cmdr (a : Byte) (sa w : Half) : (loadOperands a sa w s).cmdr = s.cmdr := rfl
@[simp] theorem loadOperands_phase (a : Byte) (sa w : Half) : (loadOperands a sa w s).phase = s.phase := rfl
@[simp] theorem loadOperands_wait (a : Byte) (sa w : Half) : (loadOperands a sa w s).wait = s.wait := rfl
@[simp] theorem loadOperands_draws (a : Byte) (sa w : Half) : (loadOperands a sa w s).draws = s.draws := rfl
@[simp] theorem loadOperands_resetSeen (a : Byte) (sa w : Half) : (loadOperands a sa w s).resetSeen = s.resetSeen := rfl
@[simp] theorem loadOperands_port (a : Byte) (sa w : Half) : (loadOperands a sa w s).port = s.port := rfl

@[simp] theorem raiseFault_crc (k : FaultCode) (cmd : Word) : (raiseFault k cmd s).crc = s.crc := rfl
@[simp] theorem raiseFault_addr (k : FaultCode) (cmd : Word) : (raiseFault k cmd s).addr = s.addr := rfl
@[simp] theorem raiseFault_saddr (k : FaultCode) (cmd : Word) : (raiseFault k cmd s).saddr = s.saddr := rfl
@[simp] theorem raiseFault_wcnt (k : FaultCode) (cmd : Word) : (raiseFault k cmd s).wcnt = s.wcnt := rfl
@[simp] theorem raiseFault_fb (k : FaultCode) (cmd : Word) : (raiseFault k cmd s).fb = s.fb := rfl
@[simp] theorem raiseFault_fvalid (k : FaultCode) (cmd : Word) : (raiseFault k cmd s).fvalid = s.fvalid := rfl
@[simp] theorem raiseFault_eany (k : FaultCode) (cmd : Word) : (raiseFault k cmd s).eany = true := rfl
@[simp] theorem raiseFault_err (k : FaultCode) (cmd : Word) : (raiseFault k cmd s).err = errCode k := rfl
@[simp] theorem raiseFault_ecmd (k : FaultCode) (cmd : Word) : (raiseFault k cmd s).ecmd = cmd := rfl
@[simp] theorem raiseFault_secrom (k : FaultCode) (cmd : Word) : (raiseFault k cmd s).secrom = s.secrom := rfl
@[simp] theorem raiseFault_idx (k : FaultCode) (cmd : Word) : (raiseFault k cmd s).idx = s.idx := rfl
@[simp] theorem raiseFault_bitn (k : FaultCode) (cmd : Word) : (raiseFault k cmd s).bitn = s.bitn := rfl
@[simp] theorem raiseFault_busy (k : FaultCode) (cmd : Word) : (raiseFault k cmd s).busy = s.busy := rfl
@[simp] theorem raiseFault_cmdr (k : FaultCode) (cmd : Word) : (raiseFault k cmd s).cmdr = s.cmdr := rfl
@[simp] theorem raiseFault_phase (k : FaultCode) (cmd : Word) : (raiseFault k cmd s).phase = s.phase := rfl
@[simp] theorem raiseFault_wait (k : FaultCode) (cmd : Word) : (raiseFault k cmd s).wait = s.wait := rfl
@[simp] theorem raiseFault_draws (k : FaultCode) (cmd : Word) : (raiseFault k cmd s).draws = s.draws := rfl
@[simp] theorem raiseFault_resetSeen (k : FaultCode) (cmd : Word) : (raiseFault k cmd s).resetSeen = s.resetSeen := rfl
@[simp] theorem raiseFault_port (k : FaultCode) (cmd : Word) : (raiseFault k cmd s).port = s.port := rfl

@[simp] theorem accept_crc (cmd : Word) : (accept cmd s).crc = s.crc := rfl
@[simp] theorem accept_addr (cmd : Word) : (accept cmd s).addr = s.addr := rfl
@[simp] theorem accept_saddr (cmd : Word) : (accept cmd s).saddr = s.saddr := rfl
@[simp] theorem accept_wcnt (cmd : Word) : (accept cmd s).wcnt = s.wcnt := rfl
@[simp] theorem accept_fb (cmd : Word) : (accept cmd s).fb = s.fb := rfl
@[simp] theorem accept_fvalid (cmd : Word) : (accept cmd s).fvalid = s.fvalid := rfl
@[simp] theorem accept_eany (cmd : Word) : (accept cmd s).eany = s.eany := rfl
@[simp] theorem accept_err (cmd : Word) : (accept cmd s).err = s.err := rfl
@[simp] theorem accept_ecmd (cmd : Word) : (accept cmd s).ecmd = s.ecmd := rfl
@[simp] theorem accept_secrom (cmd : Word) : (accept cmd s).secrom = s.secrom := rfl
@[simp] theorem accept_idx (cmd : Word) : (accept cmd s).idx = s.idx := rfl
@[simp] theorem accept_bitn (cmd : Word) : (accept cmd s).bitn = s.bitn := rfl
@[simp] theorem accept_busy (cmd : Word) : (accept cmd s).busy = true := rfl
@[simp] theorem accept_cmdr (cmd : Word) : (accept cmd s).cmdr = cmd := rfl
@[simp] theorem accept_phase (cmd : Word) : (accept cmd s).phase = .decode := rfl
@[simp] theorem accept_wait (cmd : Word) : (accept cmd s).wait = s.wait := rfl
@[simp] theorem accept_draws (cmd : Word) : (accept cmd s).draws = s.draws := rfl
@[simp] theorem accept_resetSeen (cmd : Word) : (accept cmd s).resetSeen = s.resetSeen := rfl
@[simp] theorem accept_port (cmd : Word) : (accept cmd s).port = s.port := rfl

@[simp] theorem retire_crc : (retire s).crc = s.crc := rfl
@[simp] theorem retire_addr : (retire s).addr = s.addr := rfl
@[simp] theorem retire_saddr : (retire s).saddr = s.saddr := rfl
@[simp] theorem retire_wcnt : (retire s).wcnt = s.wcnt := rfl
@[simp] theorem retire_fb : (retire s).fb = s.fb := rfl
@[simp] theorem retire_fvalid : (retire s).fvalid = s.fvalid := rfl
@[simp] theorem retire_eany : (retire s).eany = s.eany := rfl
@[simp] theorem retire_err : (retire s).err = s.err := rfl
@[simp] theorem retire_ecmd : (retire s).ecmd = s.ecmd := rfl
@[simp] theorem retire_secrom : (retire s).secrom = s.secrom := rfl
@[simp] theorem retire_idx : (retire s).idx = s.idx := rfl
@[simp] theorem retire_bitn : (retire s).bitn = s.bitn := rfl
@[simp] theorem retire_busy : (retire s).busy = s.busy := rfl
@[simp] theorem retire_cmdr : (retire s).cmdr = Config.deadLatch s.draws := rfl
@[simp] theorem retire_phase : (retire s).phase = s.phase := rfl
@[simp] theorem retire_wait : (retire s).wait = s.wait := rfl
@[simp] theorem retire_draws : (retire s).draws = s.draws + 1 := rfl
@[simp] theorem retire_resetSeen : (retire s).resetSeen = s.resetSeen := rfl
@[simp] theorem retire_port : (retire s).port = s.port := rfl

@[simp] theorem resetBlock_crc : (resetBlock s).crc = 0xFFFF#16 := rfl
@[simp] theorem resetBlock_addr : (resetBlock s).addr = 0#8 := rfl
@[simp] theorem resetBlock_saddr : (resetBlock s).saddr = 0#16 := rfl
@[simp] theorem resetBlock_wcnt : (resetBlock s).wcnt = 0#16 := rfl
@[simp] theorem resetBlock_fb : (resetBlock s).fb = [] := rfl
@[simp] theorem resetBlock_fvalid : (resetBlock s).fvalid = false := rfl
@[simp] theorem resetBlock_eany : (resetBlock s).eany = false := rfl
@[simp] theorem resetBlock_err : (resetBlock s).err = 0#2 := rfl
@[simp] theorem resetBlock_ecmd : (resetBlock s).ecmd = 0#32 := rfl
@[simp] theorem resetBlock_secrom : (resetBlock s).secrom = s.secrom := rfl
@[simp] theorem resetBlock_idx : (resetBlock s).idx = 0#4 := rfl
@[simp] theorem resetBlock_bitn : (resetBlock s).bitn = 0#4 := rfl
@[simp] theorem resetBlock_busy : (resetBlock s).busy = false := rfl
@[simp] theorem resetBlock_cmdr : (resetBlock s).cmdr = 0#32 := rfl
@[simp] theorem resetBlock_phase : (resetBlock s).phase = .idle := rfl
@[simp] theorem resetBlock_wait : (resetBlock s).wait = 0 := rfl
@[simp] theorem resetBlock_draws : (resetBlock s).draws = s.draws := rfl
@[simp] theorem resetBlock_resetSeen : (resetBlock s).resetSeen = true := rfl
@[simp] theorem resetBlock_port : (resetBlock s).port = s.port := rfl

@[simp] theorem emitHeaderByte_crc (i : Fin 8) : (emitHeaderByte s i).crc = crc16Byte s.crc (mux s i) := rfl
@[simp] theorem emitHeaderByte_addr (i : Fin 8) : (emitHeaderByte s i).addr = s.addr := rfl
@[simp] theorem emitHeaderByte_saddr (i : Fin 8) : (emitHeaderByte s i).saddr = s.saddr := rfl
@[simp] theorem emitHeaderByte_wcnt (i : Fin 8) : (emitHeaderByte s i).wcnt = s.wcnt := rfl
@[simp] theorem emitHeaderByte_fb (i : Fin 8) : (emitHeaderByte s i).fb = Memory.write s.fb i.val (mux s i) := rfl
@[simp] theorem emitHeaderByte_fvalid (i : Fin 8) : (emitHeaderByte s i).fvalid = s.fvalid := rfl
@[simp] theorem emitHeaderByte_eany (i : Fin 8) : (emitHeaderByte s i).eany = s.eany := rfl
@[simp] theorem emitHeaderByte_err (i : Fin 8) : (emitHeaderByte s i).err = s.err := rfl
@[simp] theorem emitHeaderByte_ecmd (i : Fin 8) : (emitHeaderByte s i).ecmd = s.ecmd := rfl
@[simp] theorem emitHeaderByte_secrom (i : Fin 8) : (emitHeaderByte s i).secrom = s.secrom := rfl
@[simp] theorem emitHeaderByte_idx (i : Fin 8) : (emitHeaderByte s i).idx = s.idx := rfl
@[simp] theorem emitHeaderByte_bitn (i : Fin 8) : (emitHeaderByte s i).bitn = s.bitn := rfl
@[simp] theorem emitHeaderByte_busy (i : Fin 8) : (emitHeaderByte s i).busy = s.busy := rfl
@[simp] theorem emitHeaderByte_cmdr (i : Fin 8) : (emitHeaderByte s i).cmdr = s.cmdr := rfl
@[simp] theorem emitHeaderByte_phase (i : Fin 8) : (emitHeaderByte s i).phase = s.phase := rfl
@[simp] theorem emitHeaderByte_wait (i : Fin 8) : (emitHeaderByte s i).wait = s.wait := rfl
@[simp] theorem emitHeaderByte_draws (i : Fin 8) : (emitHeaderByte s i).draws = s.draws := rfl
@[simp] theorem emitHeaderByte_resetSeen (i : Fin 8) : (emitHeaderByte s i).resetSeen = s.resetSeen := rfl
@[simp] theorem emitHeaderByte_port (i : Fin 8) : (emitHeaderByte s i).port = s.port := rfl

@[simp] theorem emitByte_crc (i : Fin 8) : (emitByte s i).crc = s.crc := rfl
@[simp] theorem emitByte_addr (i : Fin 8) : (emitByte s i).addr = s.addr := rfl
@[simp] theorem emitByte_saddr (i : Fin 8) : (emitByte s i).saddr = s.saddr := rfl
@[simp] theorem emitByte_wcnt (i : Fin 8) : (emitByte s i).wcnt = s.wcnt := rfl
@[simp] theorem emitByte_fb (i : Fin 8) : (emitByte s i).fb = Memory.write s.fb i.val (mux s i) := rfl
@[simp] theorem emitByte_fvalid (i : Fin 8) : (emitByte s i).fvalid = s.fvalid := rfl
@[simp] theorem emitByte_eany (i : Fin 8) : (emitByte s i).eany = s.eany := rfl
@[simp] theorem emitByte_err (i : Fin 8) : (emitByte s i).err = s.err := rfl
@[simp] theorem emitByte_ecmd (i : Fin 8) : (emitByte s i).ecmd = s.ecmd := rfl
@[simp] theorem emitByte_secrom (i : Fin 8) : (emitByte s i).secrom = s.secrom := rfl
@[simp] theorem emitByte_idx (i : Fin 8) : (emitByte s i).idx = s.idx := rfl
@[simp] theorem emitByte_bitn (i : Fin 8) : (emitByte s i).bitn = s.bitn := rfl
@[simp] theorem emitByte_busy (i : Fin 8) : (emitByte s i).busy = s.busy := rfl
@[simp] theorem emitByte_cmdr (i : Fin 8) : (emitByte s i).cmdr = s.cmdr := rfl
@[simp] theorem emitByte_phase (i : Fin 8) : (emitByte s i).phase = s.phase := rfl
@[simp] theorem emitByte_wait (i : Fin 8) : (emitByte s i).wait = s.wait := rfl
@[simp] theorem emitByte_draws (i : Fin 8) : (emitByte s i).draws = s.draws := rfl
@[simp] theorem emitByte_resetSeen (i : Fin 8) : (emitByte s i).resetSeen = s.resetSeen := rfl
@[simp] theorem emitByte_port (i : Fin 8) : (emitByte s i).port = s.port := rfl

end Sys2Proof.Machine
end

