-- ==== Sys2Proof/Laws/Build.lean ====
section
/-! SUPPORT. The multiplexer's inputs, and all that a build with its word count chosen does. -/

namespace Sys2Proof.Machine

@[simp] theorem mux_zero (s : State) : mux s 0 = s.addr := rfl
@[simp] theorem mux_one (s : State) : mux s 1 = Config.funcRead := rfl
@[simp] theorem mux_two (s : State) : mux s 2 = hiByte s.saddr := rfl
@[simp] theorem mux_three (s : State) : mux s 3 = loByte s.saddr := rfl
@[simp] theorem mux_four (s : State) : mux s 4 = hiByte s.wcnt := rfl
@[simp] theorem mux_five (s : State) : mux s 5 = loByte s.wcnt := rfl
@[simp] theorem mux_six (s : State) : mux s 6 = loByte s.crc := rfl
@[simp] theorem mux_seven (s : State) : mux s 7 = hiByte s.crc := rfl

/-- Eight bytes stored at the indices 0 to 7, in rising order. -/
def storeFrame (m : Memory) (b0 b1 b2 b3 b4 b5 b6 b7 : Byte) : Memory :=
  Memory.write (Memory.write (Memory.write (Memory.write (Memory.write (Memory.write (Memory.write
    (Memory.write m 0 b0) 1 b1) 2 b2) 3 b3) 4 b4) 5 b5) 6 b6) 7 b7

/-- The buffer after a build: the frame's bytes, stored in rising order (20_memory.md R50). -/
theorem buildWith_fb (a : Byte) (sa w : Half) (s : State) :
    (buildWith a sa w s).fb =
      storeFrame s.fb a Config.funcRead (hiByte sa) (loByte sa) (hiByte w) (loByte w)
        (loByte (crc16 (header a sa w))) (hiByte (crc16 (header a sa w))) := rfl

@[simp] theorem buildWith_addr (a : Byte) (sa w : Half) (s : State) : (buildWith a sa w s).addr = a := rfl
@[simp] theorem buildWith_saddr (a : Byte) (sa w : Half) (s : State) : (buildWith a sa w s).saddr = sa := rfl
@[simp] theorem buildWith_wcnt (a : Byte) (sa w : Half) (s : State) : (buildWith a sa w s).wcnt = w := rfl
@[simp] theorem buildWith_crc (a : Byte) (sa w : Half) (s : State) :
    (buildWith a sa w s).crc = crc16 (header a sa w) := rfl
@[simp] theorem buildWith_fvalid (a : Byte) (sa w : Half) (s : State) : (buildWith a sa w s).fvalid = true := rfl
@[simp] theorem buildWith_err (a : Byte) (sa w : Half) (s : State) : (buildWith a sa w s).err = 0#2 := rfl
@[simp] theorem buildWith_eany (a : Byte) (sa w : Half) (s : State) : (buildWith a sa w s).eany = s.eany := rfl
@[simp] theorem buildWith_ecmd (a : Byte) (sa w : Half) (s : State) : (buildWith a sa w s).ecmd = s.ecmd := rfl
@[simp] theorem buildWith_secrom (a : Byte) (sa w : Half) (s : State) : (buildWith a sa w s).secrom = s.secrom := rfl

/-- A build as one record update. -/
theorem buildWith_eq (a : Byte) (sa w : Half) (s : State) :
    buildWith a sa w s =
      { s with
        addr := a, saddr := sa, wcnt := w, crc := crc16 (header a sa w), fvalid := true, err := 0#2
        fb := (buildWith a sa w s).fb } := rfl

/-- A build neither reads nor writes the word latch, the count of draws and what the host does next. -/
theorem buildWith_outside (a : Byte) (sa w : Half) (s : State) (c : Word) (d : Nat) (p : List HostEvent) :
    buildWith a sa w { s with cmdr := c, draws := d, port := p } =
      { buildWith a sa w s with cmdr := c, draws := d, port := p } := by
  rw [buildWith_eq a sa w s, buildWith_eq, buildWith_fb, buildWith_fb]

/-- An index outside the frame reads as before. -/
theorem read_storeFrame_others (m : Memory) (b0 b1 b2 b3 b4 b5 b6 b7 : Byte) (i : Nat) (h : 8 ≤ i) :
    Memory.read (storeFrame m b0 b1 b2 b3 b4 b5 b6 b7) i = Memory.read m i := by
  unfold storeFrame
  repeat rw [Memory.read_write_other _ _ _ _ (by omega)]

/-- The eight bytes read back. -/
theorem frameBytes_of_storeFrame (s : State) (m : Memory) (b0 b1 b2 b3 b4 b5 b6 b7 : Byte)
    (h : s.fb = storeFrame m b0 b1 b2 b3 b4 b5 b6 b7) : frameBytes s = [b0, b1, b2, b3, b4, b5, b6, b7] := by
  simp [frameBytes, fbByte, h, storeFrame, Memory.read_write]

theorem buildWith_bytes (a : Byte) (sa w : Half) (s : State) :
    frameBytes (buildWith a sa w s) = frameOf a sa w :=
  frameBytes_of_storeFrame _ _ _ _ _ _ _ _ _ _ (buildWith_fb a sa w s)

theorem storeFrame_wf (m : Memory) (b0 b1 b2 b3 b4 b5 b6 b7 : Byte) (h : Memory.wf m = true) :
    Memory.wf (storeFrame m b0 b1 b2 b3 b4 b5 b6 b7) = true := by
  unfold storeFrame
  iterate 8 apply Memory.write_wf _ _ _ (by decide)
  exact h

theorem buildWith_wf (a : Byte) (sa w : Half) (s : State) (h : Memory.wf s.fb = true) :
    Memory.wf (buildWith a sa w s).fb = true := by
  rw [buildWith_fb]
  exact storeFrame_wf _ _ _ _ _ _ _ _ _ h

/-- All that a build with its word count chosen does. -/
theorem buildWith_built (a : Byte) (sa w : Half) (s : State) : Built a sa w s (buildWith a sa w s) where
  addr := rfl
  saddr := rfl
  wcnt := rfl
  crc := buildWith_crc a sa w s
  bytes := buildWith_bytes a sa w s
  others := fun i hi => by rw [buildWith_fb, read_storeFrame_others _ _ _ _ _ _ _ _ _ i hi]
  fvalid := rfl
  err := rfl
  eany := rfl
  ecmd := rfl
  rest := ⟨rfl, rfl, rfl, rfl, rfl, rfl, rfl, rfl, rfl, rfl⟩

/-- All that the fault entry does. -/
theorem raiseFault_eq (k : FaultCode) (cmd : Word) (s : State) :
    raiseFault k cmd s = { s with err := errCode k, eany := true, ecmd := cmd } := rfl

theorem raiseFault_datapath (k : FaultCode) (cmd : Word) (s : State) : SameDatapath s (raiseFault k cmd s) :=
  ⟨rfl, rfl, rfl, rfl, rfl, fun _ => rfl⟩

end Sys2Proof.Machine
end

