-- ==== Sys2Proof/Laws/Command.lean ====
section
/-! SUPPORT. Once what a command can do, once what a step can do: the lemmas that proofs cite instead of unfolding. -/

namespace Sys2Proof.Machine

/-- A select that names a section is at most 4 (30_encoding.md R78). -/
theorem sectionOf_none (sec : BitVec 3) : sectionOf sec = none ↔ selectNamed sec = false := by
  revert sec; decide

theorem sectionOf_some (sec : BitVec 3) : (∃ σ, sectionOf sec = some σ) ↔ selectNamed sec = true := by
  rw [← Option.ne_none_iff_exists', ne_eq, sectionOf_none, Bool.not_eq_false]

theorem exec_crcInit (s : State) : exec .crcInit s = .next { s with crc := Config.crcInit, err := 0#2 } := rfl

theorem exec_crcByte (b : Byte) (s : State) :
    exec (.crcByte b) s = .next { s with crc := crc16Byte s.crc b, err := 0#2 } := rfl

theorem exec_build_some (a : Byte) (sec : BitVec 3) (σ : Section) (s : State) (h : sectionOf sec = some σ) :
    exec (.build a sec) s = .next (buildWith a (secAddr s.secrom σ) (secWc s.secrom σ) s) := by
  simp [exec, execBuild, h]

theorem exec_build_none (a : Byte) (sec : BitVec 3) (s : State) (h : sectionOf sec = none) :
    exec (.build a sec) s = .next (raiseFault .unsupportedSection (encode (.build a sec)) s) := by
  simp [exec, execBuild, h]

theorem exec_buildw_some (a : Byte) (sec : BitVec 3) (w : Half) (σ : Section) (s : State)
    (h : sectionOf sec = some σ) :
    exec (.buildw a sec w) s = .next (buildWith a (secAddr s.secrom σ) w s) := by
  simp [exec, execBuildw, h]

theorem exec_buildw_none (a : Byte) (sec : BitVec 3) (w : Half) (s : State) (h : sectionOf sec = none) :
    exec (.buildw a sec w) s = .next (raiseFault .unsupportedSection (encode (.buildw a sec w)) s) := by
  simp [exec, execBuildw, h]

/-- All that a command can do: one of the stream commands, a build, or a fault. -/
theorem exec_cases (i : Instr) (s : State) :
    (i = .crcInit ∧ exec i s = .next (succeed (setCrc Config.crcInit s))) ∨
    (∃ b, i = .crcByte b ∧ exec i s = .next (succeed (setCrc (crc16Byte s.crc b) s))) ∨
    (∃ a σ w, isBuild i = true ∧ i.wellTyped = true ∧ exec i s = .next (buildWith a (secAddr s.secrom σ) w s)) ∨
    (isBuild i = true ∧ i.wellTyped = false ∧ exec i s = .next (raiseFault .unsupportedSection (encode i) s)) := by
  cases i with
  | crcInit => exact .inl ⟨rfl, rfl⟩
  | crcByte b => exact .inr (.inl ⟨b, rfl, rfl⟩)
  | build a sec =>
    cases h : sectionOf sec with
    | none => exact .inr (.inr (.inr ⟨rfl, (sectionOf_none sec).mp h, exec_build_none a sec s h⟩))
    | some σ =>
      exact .inr (.inr (.inl ⟨a, σ, _, rfl, (sectionOf_some sec).mp ⟨σ, h⟩, exec_build_some a sec σ s h⟩))
  | buildw a sec w =>
    cases h : sectionOf sec with
    | none => exact .inr (.inr (.inr ⟨rfl, (sectionOf_none sec).mp h, exec_buildw_none a sec w s h⟩))
    | some σ =>
      exact .inr (.inr (.inl ⟨a, σ, w, rfl, (sectionOf_some sec).mp ⟨σ, h⟩, exec_buildw_some a sec w σ s h⟩))

theorem command_ok (cmd : Word) (i : Instr) (s : State) (h : decode cmd = .ok i) : command cmd s = exec i s := by
  simp [command, h]

theorem command_error (cmd : Word) (e : Illegal) (s : State) (h : decode cmd = .error e) :
    command cmd s = .next (raiseFault .illegalCommand cmd s) := by
  simp [command, h]

/-- A command neither reads nor writes the word latch, the count of draws and what the host does next. -/
theorem command_outside (cmd c : Word) (d : Nat) (p : List HostEvent) (s t : State) (h : command cmd s = .next t) :
    command cmd { s with cmdr := c, draws := d, port := p } = .next { t with cmdr := c, draws := d, port := p } := by
  cases hd : decode cmd with
  | error e =>
    rw [command_error cmd e _ hd] at h ⊢
    cases h
    rfl
  | ok i =>
    rw [command_ok cmd i _ hd] at h ⊢
    rcases exec_cases i s with ⟨rfl, e⟩ | ⟨b, rfl, e⟩ | ⟨_, _, _, hb, hw, _⟩ | ⟨hb, hw, _⟩
    · rw [e] at h
      cases h
      rfl
    · rw [e] at h
      cases h
      rfl
    · cases i with
      | crcInit => cases hb
      | crcByte b => cases hb
      | build a sec =>
        obtain ⟨σ, hσ⟩ := (sectionOf_some sec).mpr hw
        rw [exec_build_some a sec σ _ hσ] at h ⊢
        cases h
        rw [buildWith_outside]
      | buildw a sec w =>
        obtain ⟨σ, hσ⟩ := (sectionOf_some sec).mpr hw
        rw [exec_buildw_some a sec w σ _ hσ] at h ⊢
        cases h
        rw [buildWith_outside]
    · cases i with
      | crcInit => cases hb
      | crcByte b => cases hb
      | build a sec =>
        rw [exec_build_none a sec _ ((sectionOf_none sec).mpr hw)] at h ⊢
        cases h
        rfl
      | buildw a sec w =>
        rw [exec_buildw_none a sec w _ ((sectionOf_none sec).mpr hw)] at h ⊢
        cases h
        rfl

/-- All that a step can do. -/
theorem step_cases (s : State) :
    (∃ rest, s.port = .reset :: rest ∧ step s = .next (resetBlock { s with port := rest })) ∨
    (s.resetSeen = false ∧ step s = .refused .beforeFirstReset) ∨
    (s.resetSeen = true ∧ s.busy = true ∧ step s = .next (drain s)) ∨
    (s.resetSeen = true ∧ s.busy = false ∧ s.port = [] ∧ step s = .next s) ∨
    (∃ cmd rest, s.resetSeen = true ∧ s.busy = false ∧ s.port = .command cmd :: rest ∧
      step s = commandStep cmd { s with port := rest }) := by
  unfold step hostStep
  cases hp : s.port with
  | nil => cases hr : s.resetSeen <;> cases hb : s.busy <;> simp
  | cons e rest =>
    cases e with
    | reset => simp
    | command cmd => cases hr : s.resetSeen <;> cases hb : s.busy <;> simp

/-- A run of a machine whose first step answers a next state. -/
theorem run_of_step (M : Host.Core) (k : Nat) (s s' : M.State) (h : M.step s = .next s') :
    M.run (k + 1) s = M.run k s' := by
  simp [Host.Core.run, h]

end Sys2Proof.Machine
end

