-- ==== Sys2Proof/Laws/Decode.lean ====
section
/-! SUPPORT. The rows of the opcode map read as fields (30_encoding.md R71 to R74), and the fields of an encoded command. -/

namespace Sys2Proof

/-- The row of `CRC.INIT` fixes all 32 bits. -/
theorem match_rowCrcInit (cmd : Word) : matchesRow rowCrcInit cmd ↔ cmd = 0x10000000#32 := by
  unfold matchesRow rowCrcInit
  rw [show (0xFFFFFFFF#32 : Word) = BitVec.allOnes 32 from rfl, BitVec.and_allOnes]

/-- The row of `CRC.BYTE` fixes bits 31 to 8. -/
theorem match_rowCrcByte (cmd : Word) :
    matchesRow rowCrcByte cmd ↔ opField cmd = 2#4 ∧ cmd.extractLsb' 8 20 = 0#20 := by
  unfold matchesRow rowCrcByte opField
  constructor
  · intro h
    have bits : ∀ i, (cmd &&& 0xFFFFFF00#32).getLsbD i = (0x20000000#32).getLsbD i := fun i => by rw [h]
    constructor
    · ext k hk
      have := bits (28 + k)
      interval_cases k <;> simpa using this
    · ext k hk
      have := bits (8 + k)
      interval_cases k <;> simpa using this
  · rintro ⟨h1, h2⟩
    have op : ∀ k, (cmd.extractLsb' 28 4).getLsbD k = (2#4).getLsbD k := fun k => by rw [h1]
    have zero : ∀ k, (cmd.extractLsb' 8 20).getLsbD k = (0#20).getLsbD k := fun k => by rw [h2]
    ext i hi
    by_cases hlo : i < 8
    · interval_cases i <;> simp
    · by_cases hmid : i < 28
      · have := zero (i - 8)
        interval_cases i <;> simpa using this
      · have := op (i - 28)
        interval_cases i <;> simpa using this

/-- The row of `BUILD` fixes bits 31 to 27 and 15 to 0. -/
theorem match_rowBuild (cmd : Word) :
    matchesRow rowBuild cmd ↔ opField cmd = 3#4 ∧ cmd.getLsbD 27 = false ∧ wcField cmd = 0#16 := by
  unfold matchesRow rowBuild opField wcField
  constructor
  · intro h
    have bits : ∀ i, (cmd &&& 0xF800FFFF#32).getLsbD i = (0x30000000#32).getLsbD i := fun i => by rw [h]
    refine ⟨?_, ?_, ?_⟩
    · ext k hk
      have := bits (28 + k)
      interval_cases k <;> simpa using this
    · simpa using bits 27
    · ext k hk
      have := bits k
      interval_cases k <;> simpa using this
  · rintro ⟨h1, h2, h3⟩
    have op : ∀ k, (cmd.extractLsb' 28 4).getLsbD k = (3#4).getLsbD k := fun k => by rw [h1]
    have zero : ∀ k, (cmd.extractLsb' 0 16).getLsbD k = (0#16).getLsbD k := fun k => by rw [h3]
    ext i hi
    by_cases hlo : i < 16
    · have := zero i
      interval_cases i <;> simpa using this
    · by_cases hmid : i < 27
      · interval_cases i <;> simp
      · by_cases h27 : i = 27
        · subst h27; simpa using h2
        · have bit := op (i - 28)
          have : 28 ≤ i := by omega
          interval_cases i <;> simpa using bit

/-- The row of `BUILDW` fixes bits 31 to 27. -/
theorem match_rowBuildw (cmd : Word) :
    matchesRow rowBuildw cmd ↔ opField cmd = 4#4 ∧ cmd.getLsbD 27 = false := by
  unfold matchesRow rowBuildw opField
  constructor
  · intro h
    have bits : ∀ i, (cmd &&& 0xF8000000#32).getLsbD i = (0x40000000#32).getLsbD i := fun i => by rw [h]
    refine ⟨?_, by simpa using bits 27⟩
    ext k hk
    have := bits (28 + k)
    interval_cases k <;> simpa using this
  · rintro ⟨h1, h2⟩
    have op : ∀ k, (cmd.extractLsb' 28 4).getLsbD k = (4#4).getLsbD k := fun k => by rw [h1]
    ext i hi
    by_cases hmid : i < 27
    · interval_cases i <;> simp
    · by_cases h27 : i = 27
      · subst h27; simpa using h2
      · have bit := op (i - 28)
        have : 28 ≤ i := by omega
        interval_cases i <;> simpa using bit

/-- The decoder, row by row. -/
theorem decode_rows (cmd : Word) :
    (matchesRow rowCrcInit cmd → decode cmd = .ok .crcInit) ∧
    (¬ matchesRow rowCrcInit cmd → matchesRow rowCrcByte cmd → decode cmd = .ok (.crcByte (byteField cmd))) ∧
    (¬ matchesRow rowCrcInit cmd → ¬ matchesRow rowCrcByte cmd → matchesRow rowBuild cmd →
      decode cmd = .ok (.build (addrField cmd) (secField cmd))) ∧
    (¬ matchesRow rowCrcInit cmd → ¬ matchesRow rowCrcByte cmd → ¬ matchesRow rowBuild cmd → matchesRow rowBuildw cmd →
      decode cmd = .ok (.buildw (addrField cmd) (secField cmd) (wcField cmd))) ∧
    (¬ matchesRow rowCrcInit cmd → ¬ matchesRow rowCrcByte cmd → ¬ matchesRow rowBuild cmd →
      ¬ matchesRow rowBuildw cmd → decode cmd = .error (illegalReason cmd)) := by
  unfold matchesRow decode
  refine ⟨?_, ?_, ?_, ?_, ?_⟩ <;> intros <;> simp_all

theorem opField_crcByte (b : Byte) : opField (encode (.crcByte b)) = 2#4 := by
  ext k hk
  simp only [opField, encode, BitVec.getElem_extractLsb', BitVec.getLsbD_or, BitVec.getLsbD_setWidth]
  interval_cases k <;> simp

theorem opField_build (a : Byte) (sec : BitVec 3) : opField (encode (.build a sec)) = 3#4 := by
  ext k hk
  simp only [opField, encode, BitVec.getElem_extractLsb', BitVec.getLsbD_or, BitVec.getLsbD_setWidth,
    BitVec.getLsbD_shiftLeft]
  interval_cases k <;> simp

theorem opField_buildw (a : Byte) (sec : BitVec 3) (w : Half) : opField (encode (.buildw a sec w)) = 4#4 := by
  ext k hk
  simp only [opField, encode, BitVec.getElem_extractLsb', BitVec.getLsbD_or, BitVec.getLsbD_setWidth,
    BitVec.getLsbD_shiftLeft]
  interval_cases k <;> simp

theorem byteField_crcByte (b : Byte) : byteField (encode (.crcByte b)) = b := by
  ext k hk
  simp only [byteField, encode, BitVec.getElem_extractLsb', BitVec.getLsbD_or, BitVec.getLsbD_setWidth]
  interval_cases k <;> simp

theorem zeroBits_crcByte (b : Byte) : (encode (.crcByte b)).extractLsb' 8 20 = 0#20 := by
  ext k hk
  simp only [encode, BitVec.getElem_extractLsb', BitVec.getLsbD_or, BitVec.getLsbD_setWidth]
  interval_cases k <;> simp

theorem fields_build (a : Byte) (sec : BitVec 3) :
    secField (encode (.build a sec)) = sec ∧ addrField (encode (.build a sec)) = a ∧
      wcField (encode (.build a sec)) = 0#16 ∧ (encode (.build a sec)).getLsbD 27 = false := by
  refine ⟨?_, ?_, ?_, ?_⟩
  · ext k hk
    simp only [secField, encode, BitVec.getElem_extractLsb', BitVec.getLsbD_or, BitVec.getLsbD_setWidth,
      BitVec.getLsbD_shiftLeft]
    interval_cases k <;> simp
  · ext k hk
    simp only [addrField, encode, BitVec.getElem_extractLsb', BitVec.getLsbD_or, BitVec.getLsbD_setWidth,
      BitVec.getLsbD_shiftLeft]
    interval_cases k <;> simp
  · ext k hk
    simp only [wcField, encode, BitVec.getElem_extractLsb', BitVec.getLsbD_or, BitVec.getLsbD_setWidth,
      BitVec.getLsbD_shiftLeft]
    interval_cases k <;> simp
  · simp [encode]

theorem fields_buildw (a : Byte) (sec : BitVec 3) (w : Half) :
    secField (encode (.buildw a sec w)) = sec ∧ addrField (encode (.buildw a sec w)) = a ∧
      wcField (encode (.buildw a sec w)) = w ∧ (encode (.buildw a sec w)).getLsbD 27 = false := by
  refine ⟨?_, ?_, ?_, ?_⟩
  · ext k hk
    simp only [secField, encode, BitVec.getElem_extractLsb', BitVec.getLsbD_or, BitVec.getLsbD_setWidth,
      BitVec.getLsbD_shiftLeft]
    interval_cases k <;> simp
  · ext k hk
    simp only [addrField, encode, BitVec.getElem_extractLsb', BitVec.getLsbD_or, BitVec.getLsbD_setWidth,
      BitVec.getLsbD_shiftLeft]
    interval_cases k <;> simp
  · ext k hk
    simp only [wcField, encode, BitVec.getElem_extractLsb', BitVec.getLsbD_or, BitVec.getLsbD_setWidth,
      BitVec.getLsbD_shiftLeft]
    interval_cases k <;> simp
  · simp [encode]

end Sys2Proof
end

