-- ==== Sys2Proof/Laws/Micro.lean ====
section
/-! SUPPORT. Runs of micro-steps, cut into the parts of 40_frame_builder.md R112 and 41_crc16.md R133. -/

namespace Sys2Proof.Machine

theorem microRun_add (m n : Nat) (s : State) : microRun (m + n) s = microRun n (microRun m s) := by
  induction m generalizing s with
  | zero => simp [microRun]
  | succ m ih =>
    rw [Nat.succ_add]
    exact ih (microStep s)

/-- While the block waits for a command, micro-steps change nothing. -/
theorem microRun_idle (n : Nat) (s : State) (h : s.phase = .idle) : microRun n s = s := by
  induction n with
  | zero => rfl
  | succ n ih => simp [microRun, microStep, h, ih]

/-- M4 eight times: the byte is absorbed and the build goes on to M5. -/
theorem microRun_bits (s : State) (h : s.phase = .bitStep) (hb : s.bitn = 0#4) :
    microRun 8 s = { s with crc := crc16Bits 8 s.crc, bitn := 8#4, phase := .next } := by
  simp [microRun, microStep, microBit, h, hb, setCrc]

/-- The eight bit steps of `CRC.BYTE`. -/
theorem microRun_streamBits (s : State) (h : s.phase = .streamBit) (hb : s.bitn = 0#4) :
    microRun 8 s = { s with crc := crc16Bits 8 s.crc, bitn := 8#4, phase := .streamDone } := by
  simp [microRun, microStep, microBit, h, hb, setCrc]

/-- M3, M4 eight times, M5: one turn of the loop of `SEQ`. -/
theorem microRun_turn (s : State) (h : s.phase = .select) :
    microRun 10 s =
      { emitHeaderByte s (muxIndex s) with
        bitn := 0#4, idx := s.idx + 1#4, phase := if (s.idx + 1#4).toNat < 6 then .select else .crcLow } := by
  rw [show 10 = 1 + (8 + 1) from rfl, microRun_add, microRun_add, microRun_bits]
  · simp [microRun, microStep, microSelect, microNext, h, setCrc, storeByte, emitHeaderByte, crc16Byte]
  · simp [microRun, microStep, h, microSelect]
  · simp [microRun, microStep, h, microSelect]

/-- M6 to M9. -/
theorem microRun_tail (s : State) (h : s.phase = .crcLow) :
    microRun 4 s =
      { retire (succeed (markValid (emitByte (emitByte s 6) 7))) with
        idx := 0#4, bitn := 0#4, busy := false, phase := .idle, wait := 0 } := by
  simp [microRun, microStep, h, microCrcLow, microCrcHigh, microDone, microRelease]

end Sys2Proof.Machine
end

