-- ==== Sys2Proof/Laws/PerInstr.lean ====
section
/-! SUPPORT. The families of statements about an instruction as syntax, one lemma a constructor (LAWS.json). -/

namespace Sys2Proof.Laws.OpcodeInWord

/-- The word of a command holds the opcode of the command's row in bits 31 to 28 (30_encoding.md R74). -/
def Statement (i : Instr) : Prop := opField (encode i) = opField (rowOf i).matchBits

theorem crcInit : Statement .crcInit := rfl

theorem crcByte (b : Byte) : Statement (.crcByte b) := by
  rw [Statement, opField_crcByte, rowOf]
  rfl

theorem build (a : Byte) (sec : BitVec 3) : Statement (.build a sec) := by
  rw [Statement, opField_build, rowOf]
  rfl

theorem buildw (a : Byte) (sec : BitVec 3) (w : Half) : Statement (.buildw a sec w) := by
  rw [Statement, opField_buildw, rowOf]
  rfl

end Sys2Proof.Laws.OpcodeInWord
end

