-- ==== Sys2Proof/Tests/Slice0.lean ====
section
/-! SUPPORT. The model's own tests: expected values are the spec's (95_test_vectors.md, 30_encoding.md R82), and a witness for each statement
with hypotheses. -/

namespace Sys2Proof.Tests

open Sys2Proof.Machine

/-- The next state of an outcome, to be compared. -/
def next? (o : Host.Outcome State Fault Refusal) : Option State :=
  match o with
  | .next s => some s
  | .fault _ => none
  | .refused _ => none

/-- The command a word decodes to. -/
def decoded (cmd : Word) : Option Instr := (decode cmd).toOption

/-- Reset, then `BUILD 0x30, DeviceAddress` at command level (95_test_vectors.md P4, command 1). -/
def built : State := buildWith 0x30#8 0x1467#16 1#16 State.reset

/-! Checks of well-formedness refuse an ill-formed term. -/

theorem test_select_5_is_not_well_typed : Instr.wellTyped (.build 0x30#8 5#3) = false := by decide
theorem test_select_7_is_not_well_typed : Instr.wellTyped (.buildw 0xFF#8 7#3 0#16) = false := by decide
theorem test_select_4_is_well_typed : Instr.wellTyped (.build 0xFF#8 4#3) = true := by decide
theorem test_address_256_does_not_assemble : assemble (.build 256 (.number 0)) = none := by decide
theorem test_section_8_does_not_assemble : assemble (.buildw 1 (.number 8) 0) = none := by decide
theorem test_count_65536_does_not_assemble : assemble (.request 1 (.named .batteryInfo) (some 65536)) = none := by decide
theorem test_byte_256_does_not_assemble : assemble (.crc16 [0, 256]) = none := by decide
theorem test_no_bytes_do_not_assemble : assemble (.crcBytes []) = none := by decide
theorem test_33_bits_do_not_assemble : assemble (.word (2 ^ 32)) = none := by decide

/-! Decoding: words written out bit by bit from 30_encoding.md R74. -/

theorem test_decode_crcInit : decoded 0b00010000000000000000000000000000#32 = some .crcInit := by decide
theorem test_decode_crcByte : decoded 0b00100000000000000000000000110001#32 = some (.crcByte 0x31#8) := by decide
theorem test_decode_build : decoded 0b00110011000011000000000000000000#32 = some (.build 0x0C#8 3#3) := by decide
theorem test_decode_buildw :
    decoded 0b01000010000000010000000100000010#32 = some (.buildw 0x01#8 2#3 0x0102#16) := by decide

/-- The illegal words of 95_test_vectors.md V50. -/
theorem test_decode_illegal :
    [0x00000000#32, 0xFFFFFFFF#32, 0x50000000#32, 0x10000001#32, 0x18000000#32, 0x20000131#32, 0x30300001#32,
      0x38300000#32, 0x3D300000#32, 0x48300004#32, 0x4F300004#32].map decoded = List.replicate 11 none := by decide

/-- The worked encodings of 30_encoding.md R82. -/
theorem test_encode_examples :
    encode (.build 0x30#8 0#3) = 0x30300000#32 ∧ encode (.build 1#8 2#3) = 0x32010000#32 ∧
    encode (.buildw 0x30#8 1#3 2#16) = 0x41300002#32 ∧ encode (.crcByte 0x31#8) = 0x20000031#32 := by decide

/-- Lines of 95_test_vectors.md P4, with a mnemonic in small letters. -/
theorem test_assemble_text :
    assembleText "  BUILD  0x30, DeviceAddress ; 34300000\nbuild 0x30, 5\n\n.WORD 0x30300001\nCRC16 49, 0x32".toList =
      some [0x34300000#32, 0x35300000#32, 0x30300001#32, 0x10000000#32, 0x20000031#32, 0x20000032#32] := by
  decide +kernel

/-! The CRC functions (95_test_vectors.md V10, V11, V20, V22, V30). -/

theorem test_crc16Bit : [0x0003#16, 0xA001#16, 0xFFFE#16].map crc16Bit = [0xA000#16, 0xF001#16, 0x7FFF#16] := by
  decide +kernel
theorem test_crc16Byte : crc16Byte 0x1234#16 0x56#8 = 0xE993#16 ∧ crc16Byte 0x1234#16 0x34#8 = 0x0012#16 := by
  decide +kernel
theorem test_crc16_check_string :
    crc16 [0x31#8, 0x32#8, 0x33#8, 0x34#8, 0x35#8, 0x36#8, 0x37#8, 0x38#8, 0x39#8] = 0x4B37#16 := by decide +kernel
theorem test_crc16_two_bytes_differ_in_order : crc16 [0x84#8, 0x0A#8] = 0xB7E2#16 := by decide +kernel

/-- Every sixteenth row of eight of V30's table. -/
theorem test_crcTable :
    ((List.range 8).map fun j => crcTable (BitVec.ofNat 8 j)) =
        [0x0000#16, 0xC0C1#16, 0xC181#16, 0x0140#16, 0xC301#16, 0x03C0#16, 0x0280#16, 0xC241#16] ∧
    ((List.range 8).map fun j => crcTable (BitVec.ofNat 8 (0x80 + j))) =
        [0xA001#16, 0x60C0#16, 0x6180#16, 0xA141#16, 0x6300#16, 0xA3C1#16, 0xA281#16, 0x6240#16] := by decide +kernel

/-! One step of each command. -/

/-- 41_crc16.md R135, worked example: the frame stays. -/
theorem test_crcInit_keeps_the_frame :
    (next? (step (built.withFetchWord 32 0x10000000))).map (fun s => (s.crc, s.fvalid, frameBits s)) =
      some (0xFFFF#16, true, 0x3003146700013404#64) := by decide +kernel

/-- 95_test_vectors.md V50: `CRC.BYTE FF` straight after reset. -/
theorem test_crcByte_after_reset :
    (next? (step (State.reset.withFetchWord 32 0x200000FF))).map (fun s => (s.crc, s.err, s.eany)) =
      some (0x00FF#16, 0#2, false) := by decide +kernel

/-- 95_test_vectors.md V40, last section, address FF. -/
theorem test_build_device_address :
    (next? (step (State.reset.withFetchWord 32 0x34FF0000))).map
      (fun s => (s.addr, s.saddr, s.wcnt, s.crc, frameBits s)) =
      some (0xFF#8, 0x1467#16, 1#16, 0xFB25#16, 0xFF031467000125FB#64) := by decide +kernel

/-- 95_test_vectors.md P4, command 2: the fault is precise and the earlier frame stays. -/
theorem test_build_fault_is_precise :
    (next? (step (built.withFetchWord 32 0x35300000))).map
      (fun s => (s.err, s.eany, s.ecmd, s.crc, frameBits s, s.fvalid)) =
      some (2#2, true, 0x35300000#32, 0x0434#16, 0x3003146700013404#64, true) := by decide +kernel

/-- 95_test_vectors.md V41: both bytes of the word count, most significant first. -/
theorem test_buildw_count_is_big_endian :
    (next? (step (State.reset.withFetchWord 32 0x42010102))).map (fun s => (s.wcnt, s.crc, frameBits s)) =
      some (0x0102#16, 0x3861#16, 0x010313B201026138#64) := by decide +kernel

/-- 95_test_vectors.md V41: every operand bit one. -/
theorem test_buildw_all_ones :
    (next? (step (State.reset.withFetchWord 32 0x44FFFFFF))).map frameBits = some 0xFF031467FFFFE58B#64 := by
  decide +kernel

/-- 95_test_vectors.md V50: an illegal word after a frame. -/
theorem test_illegal_word :
    (next? (step (built.withFetchWord 32 0x3D300000))).map (fun s => (s.err, s.eany, s.ecmd, s.crc)) =
      some (1#2, true, 0x3D300000#32, 0x0434#16) := by decide +kernel

/-- The table's words are run as the first command after reset. -/
theorem test_decodeTableWord : decodeTableWord 32 0x44FFFFFF = some (.buildw 0xFF#8 4#3 0xFFFF#16) := by decide

/-- The micro-steps of one build end in the command-level frame, in 66 steps after M0 (40_frame_builder.md R112). -/
theorem test_micro_build :
    (microRun 65 (accept 0x30300000#32 State.reset)).busy = true ∧
    (microRun 66 (accept 0x30300000#32 State.reset)).busy = false ∧
    frameBits (microRun 66 (accept 0x30300000#32 State.reset)) = 0x3003138800110549#64 := by decide +kernel

/-- 95_test_vectors.md P6: a reset edge clears the sticky bit. -/
theorem test_reset_clears_sticky :
    (next? (edge ⟨true, false, 0#32⟩ { built with eany := true, err := 1#2 })).map (fun s => (s.eany, s.err, s.fvalid)) =
      some (false, 0#2, false) := by decide +kernel

/-! Witnesses: a state and operands that meet the hypotheses of each statement, at the ends of their ranges. -/

theorem faulting_illegal : FaultingWord 0x00000000#32 := trivial
theorem faulting_select_5 : FaultingWord 0x35300000#32 := by show Instr.wellTyped _ = false; decide +kernel
theorem faulting_select_7 : FaultingWord 0x47FF0000#32 := by show Instr.wellTyped _ = false; decide +kernel
theorem not_faulting_crcInit : ¬ FaultingWord 0x10000000#32 := by show ¬ Instr.wellTyped .crcInit = false; decide
theorem not_faulting_select_4 : ¬ FaultingWord 0x44FFFFFF#32 := by
  show ¬ Instr.wellTyped (.buildw _ _ _) = false; decide +kernel
theorem building_select_0 : BuildingWord 0x30000000#32 := ⟨.build 0#8 0#3, rfl, rfl, rfl⟩
theorem building_select_4 : BuildingWord 0x44FFFFFF#32 := ⟨.buildw 0xFF#8 4#3 0xFFFF#16, rfl, rfl, rfl⟩
theorem not_building_crcInit : ¬ BuildingWord 0x10000000#32 := by
  rintro ⟨i, h, hb, _⟩
  cases h
  cases hb
theorem not_building_select_5 : ¬ BuildingWord 0x35300000#32 := by
  rintro ⟨i, h, _, hw⟩
  cases h
  exact absurd hw (by decide)
theorem idle_reset : Idle State.reset := ⟨rfl, rfl, rfl, rfl, rfl⟩
theorem idle_built : Idle built := ⟨rfl, rfl, rfl, rfl, rfl⟩

/-- A state with a valid frame meets the invariants. -/
theorem idleInv_built : IdleInv built where
  idle := idle_built
  canonical := by decide +kernel
  frame := fun _ => buildWith_bytes _ _ _ _
  section_known := fun _ => ⟨.deviceAddress, rfl⟩
  nothing_built := fun h => nomatch h
  err_legal := by decide
  err_sticky := fun h => absurd rfl h
  no_fault := fun _ => ⟨rfl, rfl⟩

/-- What a power-up leaves: any contents, and no reset edge yet. -/
def powerUp : State := { built with resetSeen := false, busy := true, crc := 0x1234#16 }

/-- The edge that accepts the word. -/
def offer (cmd : Word) : PortIn := ⟨false, true, cmd⟩

theorem witness_OpcodeMapDecides :
    matchesRow rowBuildw 0x44FFFFFF#32 ∧ matchesRow rowCrcByte 0x20000000#32 ∧ opField 0x00000000#32 = 0#4 ∧
    5 ≤ (opField 0x50000000#32).toNat ∧ 5 ≤ (opField 0xFFFFFFFF#32).toNat := by
  unfold matchesRow
  decide

theorem witness_EncodeOfDecodeIsTheWord : decode 0x34FF0000#32 = .ok (.build 0xFF#8 4#3) := rfl

theorem witness_ReservedEncodingsFault :
    ((0x1FFFFFFF#32).extractLsb' 28 4 = 1#4 ∧ (0x1FFFFFFF#32).extractLsb' 0 28 ≠ 0#28) ∧
    ((0x20000100#32).extractLsb' 28 4 = 2#4 ∧ (0x20000100#32).extractLsb' 8 20 ≠ 0#20) ∧
    ((0x30000001#32).extractLsb' 28 4 = 3#4 ∧ (0x30000001#32).extractLsb' 0 16 ≠ 0#16) ∧
    ((0x48000000#32).extractLsb' 28 4 = 4#4 ∧ (0x48000000#32).getLsbD 27 = true) ∧
    (decoded 0x45000000#32 = some (.buildw 0#8 5#3 0#16) ∧ 5 ≤ ((0x45000000#32).extractLsb' 24 3).toNat) := by decide

theorem witness_AssembledLinesAreTheirCommands :
    (255 ≤ 255 ∧ operandSelect (.number 7) ≤ 7 ∧ 65535 ≤ 65535) ∧ ¬ (256 ≤ 255 ∧ operandSelect (.number 7) ≤ 7) ∧
    ¬ (255 ≤ 255 ∧ operandSelect (.number 8) ≤ 7) ∧
    ¬ (255 ≤ 255 ∧ operandSelect (.number 7) ≤ 7 ∧ 65536 ≤ 65535) := by decide

theorem witness_PseudoInstructionsExpand : (∀ b ∈ [0, 255], b ≤ 255) ∧ [0, 255] ≠ [] ∧ 0xFFFFFFFF < 2 ^ 32 := by decide

theorem witness_CrcInitResult :
    ((0x10000000#32).extractLsb' 28 4 = 1#4 ∧ (0x10000000#32).extractLsb' 0 28 = 0#28) ∧
    ((0x18000000#32).extractLsb' 28 4 = 1#4 ∧ (0x18000000#32).extractLsb' 0 28 ≠ 0#28) ∧
    (buildWith 0x30#8 0x1388#16 17#16 State.reset).crc = 0x4905#16 := by decide +kernel

theorem witness_CrcByteResult :
    ((0x200000FF#32).extractLsb' 28 4 = 2#4 ∧ (0x200000FF#32).extractLsb' 8 20 = 0#20) ∧
    ((0x20000131#32).extractLsb' 28 4 = 2#4 ∧ (0x20000131#32).extractLsb' 8 20 ≠ 0#20) ∧
    State.reset.crc = 0xFFFF#16 := by decide

theorem witness_StreamCommandsFrame : isBuild (.crcByte 0xFF#8) = false ∧ isBuild .crcInit = false ∧
    exec (.crcByte 0xFF#8) built = .next { built with crc := crc16Byte built.crc 0xFF#8, err := 0#2 } :=
  ⟨rfl, rfl, exec_crcByte _ _⟩

theorem witness_NineMicroStepsAbsorbAByte :
    (microRun 1 (accept 0x200000FF#32 built)).phase = .streamXor ∧
    (microRun 2 (accept 0x34FF0000#32 built)).phase = .select ∧
    (microRun 52 (accept 0x34FF0000#32 built)).phase = .select := by decide +kernel

theorem witness_BuildResult :
    (0#3).toNat ≤ 4 ∧ (4#3).toNat ≤ 4 ∧ 5 ≤ (5#3).toNat ∧ 5 ≤ (7#3).toNat ∧
    ((0x38300000#32).extractLsb' 28 4 = 3#4 ∧ (0x38300000#32).getLsbD 27 = true) ∧
    ((0x30300001#32).extractLsb' 28 4 = 3#4 ∧ (0x30300001#32).extractLsb' 0 16 ≠ 0#16) := by decide

theorem witness_BuildwResult :
    (0#3).toNat ≤ 4 ∧ (4#3).toNat ≤ 4 ∧ 5 ≤ (5#3).toNat ∧ 5 ≤ (7#3).toNat ∧
    ((0x4F300004#32).extractLsb' 28 4 = 4#4 ∧ (0x4F300004#32).getLsbD 27 = true) := by decide

theorem witness_BuildCommandsFrame :
    (isBuild (.build 0xFF#8 4#3) = true ∧ Instr.wellTyped (.build 0xFF#8 4#3) = true ∧
      exec (.build 0xFF#8 4#3) State.reset = .next (buildWith 0xFF#8 0x1467#16 1#16 State.reset)) ∧
    (isBuild (.buildw 0#8 5#3 0#16) = true ∧ Instr.wellTyped (.buildw 0#8 5#3 0#16) = false ∧
      exec (.buildw 0#8 5#3 0#16) built = .next (raiseFault .unsupportedSection (encode (.buildw 0#8 5#3 0#16)) built)) :=
  ⟨⟨rfl, rfl, exec_build_some _ _ .deviceAddress _ rfl⟩, rfl, rfl, exec_buildw_none _ _ _ _ rfl⟩

theorem witness_EveryAddressAndCountBuilds : (4#3).toNat ≤ 4 ∧ State.reset.secrom = Config.sections := by decide

theorem witness_FrameHoldsUntilNextBuild :
    BuildingWord 0x44FFFFFF#32 ∧ ∀ x ∈ [0x10000000#32, 0x35300000#32], ¬ BuildingWord x := by
  refine ⟨building_select_4, ?_⟩
  intro x hx
  rcases List.mem_cons.mp hx with rfl | hx
  · exact not_building_crcInit
  · rw [List.mem_singleton.mp hx]
    exact not_building_select_5

theorem witness_BuildIsHistoryFree :
    BuildingWord 0x30000000#32 ∧ State.reset.secrom = built.secrom ∧ Memory.wf State.reset.fb = true ∧
    Memory.wf built.fb = true := ⟨building_select_0, rfl, rfl, idleInv_built.canonical⟩

theorem witness_BuildLeavesItsChecksumInCrc : BuildingWord 0x44FFFFFF#32 := building_select_4

theorem witness_BuildInsideStreamIsNotDetected : BuildingWord 0x30000000#32 := building_select_0

theorem witness_OnlySuccessfulBuildsWriteTheFrame :
    ¬ BuildingWord 0x35300000#32 ∧
    command 0x35300000#32 built = .next (raiseFault .unsupportedSection 0x35300000#32 built) :=
  ⟨not_building_select_5, rfl⟩

theorem witness_UnsupportedSectionFault :
    decode 0x35300000#32 = .ok (.build 0x30#8 5#3) ∧ 5 ≤ (5#3).toNat ∧
    decode 0x47FFFFFF#32 = .ok (.buildw 0xFF#8 7#3 0xFFFF#16) ∧ 5 ≤ (7#3).toNat ∧
    command 0x35300000#32 built = .next (raiseFault .unsupportedSection 0x35300000#32 built) ∧
    (raiseFault .unsupportedSection 0x35300000#32 built).err = 2#2 := ⟨rfl, by decide, rfl, by decide, rfl, rfl⟩

theorem witness_FormBeforeContentAndResetFirst :
    (0x3D300000#32).getLsbD 27 = true ∧
    ((0x35300001#32).extractLsb' 28 4 = 3#4 ∧ (0x35300001#32).extractLsb' 0 16 ≠ 0#16) ∧ (PortIn.mk true true 0x30000000#32).rst = true ∧
    ({ built with port := [.reset, .command 0#32], busy := true } : State).port = .reset :: [.command 0#32] := by decide

theorem witness_FaultsArePrecise : FaultingWord 0x00000000#32 ∧ FaultingWord 0x47FF0000#32 :=
  ⟨faulting_illegal, faulting_select_7⟩

theorem witness_SuccessClearsErrOnly : ¬ FaultingWord 0x10000000#32 ∧ ¬ FaultingWord 0x44FFFFFF#32 :=
  ⟨not_faulting_crcInit, not_faulting_select_4⟩

theorem witness_ErrorRegistersSteerNothing : ({ built with eany := true, err := 2#2 } : State).eany = true := rfl

theorem witness_EcmdHoldsLatestFaultingWord :
    FaultingWord 0x35300000#32 ∧ ∀ x ∈ [0x10000000#32, 0x44FFFFFF#32], ¬ FaultingWord x := by
  refine ⟨faulting_select_5, ?_⟩
  intro x hx
  rcases List.mem_cons.mp hx with rfl | hx
  · exact not_faulting_crcInit
  · rw [List.mem_singleton.mp hx]
    exact not_faulting_select_4

theorem witness_NothingStopsTheBlock :
    built.resetSeen = true ∧ ({ built with busy := true, phase := .bitStep } : State).resetSeen = true := ⟨rfl, rfl⟩

theorem witness_StaleFrameStaysAfterFault : FaultingWord 0x35300000#32 ∧ built.busy = false := ⟨faulting_select_5, rfl⟩

theorem witness_ResetLeavesResetValues : (PortIn.mk true false 0#32).rst = true := rfl

theorem witness_ResetAbandonsTheCommand :
    (PortIn.mk true true 0x30000000#32).rst = true ∧ (offer 0x30000000#32).rst = false ∧
    (offer 0x30000000#32).cmdValid = true := ⟨rfl, rfl, rfl⟩

theorem witness_NoRunBeforeFirstReset :
    powerUp.resetSeen = false ∧ (∀ rest, powerUp.port ≠ .reset :: rest) ∧ (offer 0#32).rst = false :=
  ⟨rfl, fun rest h => absurd (show ([] : List HostEvent) = .reset :: rest from h) (by simp), rfl⟩

/-- A host that issues one byte and then resets. -/
def streaming : State := { built with port := [.command 0x200000FF#32, .reset] }

theorem witness_StepRunsTheDecodedCommand :
    streaming.resetSeen = true ∧ streaming.busy = false ∧ streaming.port = .command 0x200000FF#32 :: [.reset] ∧
    decode 0x200000FF#32 = .ok (.crcByte 0xFF#8) ∧
    ∃ t, exec (.crcByte 0xFF#8) { streaming with port := [.reset], cmdr := 0x200000FF#32 } = .next t :=
  ⟨rfl, rfl, rfl, rfl, _, exec_crcByte _ _⟩

theorem witness_StepTakesIllegalCommand :
    let s : State := { built with port := [.command 0xFFFFFFFF#32] }
    s.resetSeen = true ∧ s.busy = false ∧ s.port = .command 0xFFFFFFFF#32 :: [] ∧
    decode 0xFFFFFFFF#32 = .error .unassignedOp := ⟨rfl, rfl, rfl, rfl⟩

theorem witness_StepsApplyCommandsInOrder :
    let s : State := { built with port := [0x10000000#32, 0x00000000#32].map .command }
    s.resetSeen = true ∧ s.busy = false ∧ s.port = [0x10000000#32, 0x00000000#32].map .command := ⟨rfl, rfl, rfl⟩

theorem idleInv_port (s : State) (p : List HostEvent) (h : IdleInv s) : IdleInv { s with port := p } := by
  obtain ⟨h1, h2, h3, h4, h5, h6, h7, h8⟩ := h
  exact ⟨h1, h2, h3, h4, h5, h6, h7, h8⟩

theorem witness_EveryStepKeepsInvariant :
    IdleInv { built with port := [.command 0x10000000#32] } ∧
      ∃ t, step { built with port := [.command 0x10000000#32] } = .next t ∧ t.crc = 0xFFFF#16 :=
  ⟨idleInv_port _ _ idleInv_built, _, rfl, rfl⟩

theorem witness_NothingWritesTheSectionTable :
    step built = .next built ∧ edge (offer 0x30000000#32) built = .next (acceptEdge 0x30000000#32 built) := ⟨rfl, rfl⟩

theorem witness_MicroStepsRefineTheCommand : Idle built := idle_built

theorem witness_MicroStepCounts :
    Idle built ∧ BuildingWord 0x44FFFFFF#32 ∧ decode 0x200000FF#32 = .ok (.crcByte 0xFF#8) :=
  ⟨idle_built, building_select_4, rfl⟩

theorem witness_EveryMicroStepKeepsCounterRanges : Idle built ∧ MicroInv (accept 0x30000000#32 State.reset) :=
  ⟨idle_built, by constructor <;> decide⟩

theorem witness_AcceptedCommandsComplete :
    built.resetSeen = true ∧ Idle built ∧ (offer 0x30000000#32).rst = false ∧ (offer 0x30000000#32).cmdValid = true ∧
    (∀ q ∈ [offer 0x10000000#32], q.rst = false) ∧ ([] : List PortIn).length < 1 ∧ [offer 0x10000000#32].length = 1 :=
  ⟨rfl, idle_built, rfl, rfl, fun q hq => by rw [List.mem_singleton.mp hq]; rfl, by decide, rfl⟩

theorem witness_HandshakeAcceptsExactlyWhenReady (anything : Outputs) :
    built.resetSeen = true ∧ (offer 0#32).rst = false ∧ (offer 0#32).cmdValid = true ∧
    (outputs anything built).cmdReady = 1#1 ∧ (outputs anything (accept 0#32 built)).cmdReady = 0#1 ∧
    (PortIn.mk false false 0#32).cmdValid = false ∧ built.busy = false := ⟨rfl, rfl, rfl, rfl, rfl, rfl, rfl⟩

theorem witness_OutputPortsShowTheIdleState : built.busy = false ∧ (accept 0#32 built).busy = true := ⟨rfl, rfl⟩

theorem witness_FrameOutReadsFields : IdleInv built ∧ built.fvalid = true := ⟨idleInv_built, rfl⟩

end Sys2Proof.Tests
end

