-- ==== Sys2Proof/Proofs/Reset.lean ====
section
/-! PROOFS. What a reset edge does (70_reset_and_hazards.md R190) and what it leaves (10_state.md R38). -/

namespace Sys2Proof.Machine

/-- A reset edge has one outcome, whatever the state and whatever is offered (70_reset_and_hazards.md R190). -/
theorem edge_of_rst (p : PortIn) (s : State) (h : p.rst = true) : edge p s = .next (resetBlock s) :=
  if_pos h

/-- Every byte of the frame buffer after a reset: no index is listed, so each reads as the reset content. -/
@[simp] theorem resetBlock_fbByte (s : State) (i : Fin 8) : fbByte (resetBlock s) i = 0x00#8 := by
  rw [fbByte, resetBlock_fb, Memory.read_nil, Memory.unlisted]

/-- `frame_o` when every byte of the buffer is 0. -/
theorem frameBits_eq_zero (s : State) (h : ∀ i : Fin 8, fbByte s i = 0x00#8) :
    frameBits s = 0x0000000000000000#64 := by
  simp only [frameBits, h]
  decide

/-- Settles O42: the reset edge leads to `resetBlock s`, each of whose fields is read off by its own law. -/
theorem resetLeavesResetValues : Obligations.ResetLeavesResetValues := by
  intro p s h
  have hframe : frameBits (resetBlock s) = 0x0000000000000000#64 :=
    frameBits_eq_zero (resetBlock s) (resetBlock_fbByte s)
  have hfunc : mux (resetBlock s) 1 = 0x03#8 := mux_one (resetBlock s)
  exact ⟨resetBlock s, edge_of_rst p s h, by simp [hframe, hfunc]⟩

end Sys2Proof.Machine
end

