-- ==== Sys2Proof/Proofs/Decoding.lean ====
section
/-! PROOFS. The decoder read through the opcode map (30_encoding.md R71 to R74): a row is known by its `OP`, so a word matches at most one row,
and it decodes to the command of the row it matches. -/

namespace Sys2Proof

/-! The rows of the map are told apart by bits 31 to 28. -/

/-- Every mask of the map covers `OP`, so a word that matches a row has the row's `OP`. -/
theorem opField_of_matchesRow {r : OpcodeRow} {cmd : Word} (hr : r ∈ opcodeMap) (h : matchesRow r cmd) :
    opField cmd = opField r.matchBits := by
  have hmask : ∀ r ∈ opcodeMap, opField r.mask = BitVec.allOnes 4 := by decide
  calc opField cmd = opField cmd &&& opField r.mask := by rw [hmask r hr, BitVec.and_allOnes]
    _ = opField (cmd &&& r.mask) := BitVec.extractLsb'_and.symm
    _ = opField r.matchBits := congrArg opField h

/-- No two rows match one word. -/
theorem matchesRow_unique {r r' : OpcodeRow} {cmd : Word} (hr : r ∈ opcodeMap) (hr' : r' ∈ opcodeMap)
    (h : matchesRow r cmd) (h' : matchesRow r' cmd) : r = r' := by
  have hop : ∀ r ∈ opcodeMap, ∀ r' ∈ opcodeMap, opField r.matchBits = opField r'.matchBits → r = r' := by decide
  exact hop r hr r' hr' ((opField_of_matchesRow hr h).symm.trans (opField_of_matchesRow hr' h'))

/-- A word with an unassigned `OP` matches no row. -/
theorem not_matchesRow_of_unassigned {cmd : Word} (h : opField cmd = 0#4 ∨ 5 ≤ (opField cmd).toNat) :
    ∀ r ∈ opcodeMap, ¬ matchesRow r cmd := by
  have hassigned : ∀ r ∈ opcodeMap, ¬ (opField r.matchBits = 0#4 ∨ 5 ≤ (opField r.matchBits).toNat) := by decide
  intro r hr hm
  exact hassigned r hr (opField_of_matchesRow hr hm ▸ h)

/-- The row of a command is a row of the map. -/
theorem rowOf_mem_opcodeMap (i : Instr) : rowOf i ∈ opcodeMap := by
  cases i <;> simp [rowOf, opcodeMap]

/-! What a word that matches a row decodes to: the rows above it in the map do not match, since only one row does. -/

theorem decode_of_rowCrcInit {cmd : Word} (h : matchesRow rowCrcInit cmd) : decode cmd = .ok .crcInit :=
  (decode_rows cmd).1 h

theorem decode_of_rowCrcByte {cmd : Word} (h : matchesRow rowCrcByte cmd) :
    decode cmd = .ok (.crcByte (byteField cmd)) := by
  obtain ⟨-, hdecode, -⟩ := decode_rows cmd
  refine hdecode ?_ h
  exact fun h' => absurd (matchesRow_unique (by decide) (by decide) h h') (by decide)

theorem decode_of_rowBuild {cmd : Word} (h : matchesRow rowBuild cmd) :
    decode cmd = .ok (.build (addrField cmd) (secField cmd)) := by
  obtain ⟨-, -, hdecode, -⟩ := decode_rows cmd
  refine hdecode ?_ ?_ h <;>
    exact fun h' => absurd (matchesRow_unique (by decide) (by decide) h h') (by decide)

theorem decode_of_rowBuildw {cmd : Word} (h : matchesRow rowBuildw cmd) :
    decode cmd = .ok (.buildw (addrField cmd) (secField cmd) (wcField cmd)) := by
  obtain ⟨-, -, -, hdecode, -⟩ := decode_rows cmd
  refine hdecode ?_ ?_ ?_ h <;>
    exact fun h' => absurd (matchesRow_unique (by decide) (by decide) h h') (by decide)

theorem decode_of_no_row {cmd : Word} (h : ∀ r ∈ opcodeMap, ¬ matchesRow r cmd) :
    decode cmd = .error (illegalReason cmd) := by
  obtain ⟨-, -, -, -, hdecode⟩ := decode_rows cmd
  exact hdecode (h _ (by decide)) (h _ (by decide)) (h _ (by decide)) (h _ (by decide))

/-- A word that matches a row decodes to a command of that row. -/
theorem exists_decode_of_matchesRow {r : OpcodeRow} {cmd : Word} (hr : r ∈ opcodeMap) (h : matchesRow r cmd) :
    ∃ i, decode cmd = .ok i ∧ rowOf i = r := by
  have hrows : r = rowCrcInit ∨ r = rowCrcByte ∨ r = rowBuild ∨ r = rowBuildw := by
    simpa [opcodeMap] using hr
  rcases hrows with rfl | rfl | rfl | rfl
  · exact ⟨_, decode_of_rowCrcInit h, rfl⟩
  · exact ⟨_, decode_of_rowCrcByte h, rfl⟩
  · exact ⟨_, decode_of_rowBuild h, rfl⟩
  · exact ⟨_, decode_of_rowBuildw h, rfl⟩

/-- A word that decodes matches the row of its command: it matches some row, or it would be refused. -/
theorem matchesRow_of_decode {cmd : Word} {i : Instr} (h : decode cmd = .ok i) : matchesRow (rowOf i) cmd := by
  by_cases hsome : ∃ r ∈ opcodeMap, matchesRow r cmd
  · obtain ⟨r, hr, hm⟩ := hsome
    obtain ⟨i', hi', rfl⟩ := exists_decode_of_matchesRow hr hm
    obtain rfl : i' = i := Except.ok.inj (hi'.symm.trans h)
    exact hm
  · have herror : decode cmd = .error (illegalReason cmd) :=
      decode_of_no_row fun r hr hm => hsome ⟨r, hr, hm⟩
    exact nomatch herror.symm.trans h

/-- A word with an unassigned `OP` is refused for that reason (30_encoding.md R77 (a)). -/
theorem decode_of_unassigned {cmd : Word} (h : opField cmd = 0#4 ∨ 5 ≤ (opField cmd).toNat) :
    decode cmd = .error .unassignedOp := by
  have hreason : illegalReason cmd = .unassignedOp := if_pos (h.imp_right fun h5 => BitVec.lt_def.mpr h5)
  rw [decode_of_no_row (not_matchesRow_of_unassigned h), hreason]

/-- Settles O2: the rows are those of R74, a word decodes exactly by the one row it matches, and `OP` tells the rows apart. -/
theorem opcodeMapDecides : Obligations.OpcodeMapDecides :=
  ⟨rfl, fun _ =>
    ⟨fun i h => ⟨rowOf_mem_opcodeMap i, matchesRow_of_decode h⟩,
      fun _ hr h => exists_decode_of_matchesRow hr h,
      fun _ hr _ hr' h h' => matchesRow_unique hr hr' h h',
      decode_of_unassigned⟩⟩

/-! Which words decode to a given command: those that match its row and hold its operands. -/

theorem decode_eq_crcInit_iff (cmd : Word) : decode cmd = .ok .crcInit ↔ matchesRow rowCrcInit cmd :=
  ⟨matchesRow_of_decode, decode_of_rowCrcInit⟩

theorem decode_eq_crcByte_iff (cmd : Word) (b : Byte) :
    decode cmd = .ok (.crcByte b) ↔ matchesRow rowCrcByte cmd ∧ byteField cmd = b := by
  constructor
  · intro h
    have hm : matchesRow rowCrcByte cmd := matchesRow_of_decode h
    rw [decode_of_rowCrcByte hm] at h
    cases h
    exact ⟨hm, rfl⟩
  · rintro ⟨hm, rfl⟩
    exact decode_of_rowCrcByte hm

theorem decode_eq_build_iff (cmd : Word) (a : Byte) (sec : BitVec 3) :
    decode cmd = .ok (.build a sec) ↔ matchesRow rowBuild cmd ∧ addrField cmd = a ∧ secField cmd = sec := by
  constructor
  · intro h
    have hm : matchesRow rowBuild cmd := matchesRow_of_decode h
    rw [decode_of_rowBuild hm] at h
    cases h
    exact ⟨hm, rfl, rfl⟩
  · rintro ⟨hm, rfl, rfl⟩
    exact decode_of_rowBuild hm

theorem decode_eq_buildw_iff (cmd : Word) (a : Byte) (sec : BitVec 3) (w : Half) :
    decode cmd = .ok (.buildw a sec w) ↔
      matchesRow rowBuildw cmd ∧ addrField cmd = a ∧ secField cmd = sec ∧ wcField cmd = w := by
  constructor
  · intro h
    have hm : matchesRow rowBuildw cmd := matchesRow_of_decode h
    rw [decode_of_rowBuildw hm] at h
    cases h
    exact ⟨hm, rfl, rfl, rfl⟩
  · rintro ⟨hm, rfl, rfl, rfl⟩
    exact decode_of_rowBuildw hm

/-- The row of `CRC.INIT` read as the fields of format N (30_encoding.md R71). -/
theorem match_rowCrcInit_fields (cmd : Word) :
    matchesRow rowCrcInit cmd ↔ opField cmd = 1#4 ∧ cmd.extractLsb' 0 28 = 0#28 := by
  rw [match_rowCrcInit]
  constructor
  · rintro rfl
    decide
  · rintro ⟨hop, hzero⟩
    calc cmd = opField cmd ++ cmd.extractLsb' 0 28 := by
          rw [opField, BitVec.extractLsb'_append_extractLsb'_eq_extractLsb' (show 28 = 0 + 28 from rfl),
            BitVec.extractLsb'_eq_self]
      _ = 0x10000000#32 := by rw [hop, hzero]; rfl

/-- Settles O1: each command's row read as the fields of its format. -/
theorem formatsFixFieldsAndZeroBits : Obligations.FormatsFixFieldsAndZeroBits := by
  intro cmd
  refine ⟨?_, fun b => ?_, fun a sec => ?_, fun a sec w => ?_⟩
  · rw [decode_eq_crcInit_iff, match_rowCrcInit_fields]
    rfl
  · rw [decode_eq_crcByte_iff, match_rowCrcByte, and_assoc]
    rfl
  · rw [decode_eq_build_iff, match_rowBuild]
    exact ⟨fun ⟨⟨hop, hbit, hwc⟩, ha, hsec⟩ => ⟨hop, hbit, hsec, ha, hwc⟩,
      fun ⟨hop, hbit, hsec, ha, hwc⟩ => ⟨⟨hop, hbit, hwc⟩, ha, hsec⟩⟩
  · rw [decode_eq_buildw_iff, match_rowBuildw]
    exact ⟨fun ⟨⟨hop, hbit⟩, ha, hsec, hw⟩ => ⟨hop, hbit, hsec, ha, hw⟩,
      fun ⟨hop, hbit, hsec, ha, hw⟩ => ⟨⟨hop, hbit⟩, ha, hsec, hw⟩⟩

end Sys2Proof
end

