-- ==== Sys2Proof/Proofs/PseudoInstructions.lean ====
section
/-! PROOFS. The pseudo-instructions (30_encoding.md R83): the words they expand to, and what the stream commands of `CRC16` leave in `CRC`. -/

namespace Sys2Proof.Machine

/-! The words of the stream commands carried out as commands. -/

theorem decode_encode_crcByte (b : Byte) : decode (encode (.crcByte b)) = .ok (.crcByte b) :=
  (decode_eq_crcByte_iff _ b).mpr
    ⟨(match_rowCrcByte _).mpr ⟨opField_crcByte b, zeroBits_crcByte b⟩, byteField_crcByte b⟩

theorem command_encode_crcInit (s : State) :
    command (encode .crcInit) s = .next { s with crc := Config.crcInit, err := 0#2 } := by
  rw [command_ok _ .crcInit s rfl, exec_crcInit]

theorem command_encode_crcByte (b : Byte) (s : State) :
    command (encode (.crcByte b)) s = .next { s with crc := crc16Byte s.crc b, err := 0#2 } := by
  rw [command_ok _ _ s (decode_encode_crcByte b), exec_crcByte]

/-- A list of commands whose first has a next state goes on from there. -/
theorem commands_cons_of_next {cmd : Word} {s t : State} (rest : List Word) (h : command cmd s = .next t) :
    commands (cmd :: rest) s = commands rest t := by
  rw [commands, h]

/-- One `CRC.BYTE` a byte absorbs the bytes in order, from any register value. -/
theorem commands_byteLines (bs : List Nat) (s : State) :
    ∃ t, commands (byteLines bs) s = .next t ∧ t.crc = crc16From s.crc (bs.map (BitVec.ofNat 8)) := by
  induction bs generalizing s with
  | nil => exact ⟨s, rfl, rfl⟩
  | cons b bs ih =>
    obtain ⟨t, hrun, hcrc⟩ := ih { s with crc := crc16Byte s.crc (BitVec.ofNat 8 b), err := 0#2 }
    exact ⟨t, (commands_cons_of_next (byteLines bs) (command_encode_crcByte _ s)).trans hrun, hcrc⟩

/-- The words of `CRC16` leave the CRC of the bytes in `CRC`, whatever it held before. -/
theorem commands_expand_crc16 (bs : List Nat) (s : State) :
    ∃ t, commands (expand (.crc16 bs)) s = .next t ∧ t.crc = crc16 (bs.map (BitVec.ofNat 8)) := by
  obtain ⟨t, hrun, hcrc⟩ := commands_byteLines bs { s with crc := Config.crcInit, err := 0#2 }
  exact ⟨t, (commands_cons_of_next (byteLines bs) (command_encode_crcInit s)).trans hrun, hcrc⟩

/-! Which lines assemble. -/

theorem assemble_of_wf {l : Source} (h : l.wf = true) : assemble l = some (expand l) :=
  if_pos h

theorem all_byteInRange_iff (bs : List Nat) : bs.all byteInRange = true ↔ ∀ b ∈ bs, b ≤ 255 := by
  simp [byteInRange]

theorem wf_crcBytes_iff (bs : List Nat) : (Source.crcBytes bs).wf = true ↔ bs ≠ [] ∧ ∀ b ∈ bs, b ≤ 255 := by
  rw [Source.wf, Bool.and_eq_true, all_byteInRange_iff]
  simp

theorem wf_crc16_iff (bs : List Nat) : (Source.crc16 bs).wf = true ↔ ∀ b ∈ bs, b ≤ 255 :=
  all_byteInRange_iff bs

theorem wf_word_iff (imm : Nat) : (Source.word imm).wf = true ↔ imm < 2 ^ 32 :=
  decide_eq_true_iff

/-- `REQUEST` without a count is `BUILD`: the same ranges and the same word. -/
theorem assemble_request_none (a : Nat) (o : SectionOperand) :
    assemble (.request a o none) = assemble (.build a o) := by
  simp [assemble, Source.wf, expand]

/-- `REQUEST` with a count is `BUILDW`: the same ranges and the same word. -/
theorem assemble_request_some (a wc : Nat) (o : SectionOperand) :
    assemble (.request a o (some wc)) = assemble (.buildw a o wc) := by
  simp [assemble, Source.wf, expand]

/-- Settles O9: each line with its operands in range assembles to its expansion, and that of `CRC16` computes the CRC. -/
theorem pseudoInstructionsExpand : Obligations.PseudoInstructionsExpand := by
  intro a wc imm o bs s
  refine ⟨assemble_request_none a o, assemble_request_some a wc o, rfl, ?_, ?_, ?_⟩
  · intro hrange hne
    exact assemble_of_wf ((wf_crcBytes_iff bs).mpr ⟨hne, hrange⟩)
  · intro hrange
    obtain ⟨t, hrun, hcrc⟩ := commands_expand_crc16 bs s
    exact ⟨_, t, assemble_of_wf ((wf_crc16_iff bs).mpr hrange), rfl, hrun, hcrc⟩
  · intro himm
    exact assemble_of_wf ((wf_word_iff imm).mpr himm)

end Sys2Proof.Machine
end

