-- ==== Sys2Proof/Proofs/Residue.lean ====
section
/-! PROOFS. The residue of the CRC unit (41_crc16.md R141): a register takes its own two bytes, low byte first, to zero. -/

namespace Sys2Proof.Machine

/-- The two bytes of a value, high byte first, are the value. -/
theorem hiByte_append_loByte (v : Half) : hiByte v ++ loByte v = v := by
  rw [hiByte, loByte, BitVec.extractLsb'_append_extractLsb'_eq_extractLsb' (show 8 = 0 + 8 from rfl),
    BitVec.extractLsb'_eq_self]

/-- A bit step on a register with bit 0 clear is a shift. -/
theorem crc16Bit_of_bit_zero_clear {c : Half} (h : c.getLsbD 0 = false) : crc16Bit c = c >>> 1 :=
  if_neg (Bool.eq_false_iff.mp h)

/-- As long as the bits that leave the register are clear, bit steps only shift. -/
theorem crc16Bits_of_low_bits_clear {n : Nat} {c : Half} (h : ∀ i < n, c.getLsbD i = false) :
    crc16Bits n c = c >>> n := by
  induction n generalizing c with
  | zero => simp
  | succ n ih =>
    have hshifted : ∀ i < n, (c >>> 1).getLsbD i = false := fun i hi => by
      rw [BitVec.getLsbD_ushiftRight]
      exact h (1 + i) (by omega)
    rw [crc16Bits_succ, crc16Bit_of_bit_zero_clear (h 0 n.succ_pos), ih hshifted, ← BitVec.shiftRight_add,
      Nat.add_comm]

/-- The low byte combined with itself clears the bits that the byte step shifts out. -/
theorem crc16Byte_loByte (c : Half) : crc16Byte c (loByte c) = c >>> 8 := by
  have hclear : ∀ i < 8, (c ^^^ zext16 (loByte c)).getLsbD i = false := fun i hi => by
    simp [zext16, loByte, hi, show i < 16 by omega]
  rw [crc16Byte, crc16Bits_of_low_bits_clear hclear]
  ext i hi
  simp [zext16, loByte]

/-- What is left is the high byte, which clears the register. -/
theorem crc16Byte_hiByte (c : Half) : crc16Byte (c >>> 8) (hiByte c) = 0x0000#16 := by
  have hbyte : zext16 (hiByte c) = c >>> 8 := by
    ext i hi
    simp only [zext16, hiByte, BitVec.getElem_setWidth, BitVec.getLsbD_extractLsb', BitVec.getElem_ushiftRight]
    by_cases h8 : i < 8
    · simp [h8]
    · simp [h8, BitVec.getLsbD_of_ge c (8 + i) (by omega)]
  rw [crc16Byte, hbyte, BitVec.xor_self]
  rfl

end Sys2Proof.Machine
end

