-- ==== Sys2Proof/Proofs/FrameBuilder.lean ====
section
/-! PROOFS. The frame builder (40_frame_builder.md R101 to R111): the section table, the frame function, and what `BUILD` and `BUILDW` do
from every state. -/

namespace Sys2Proof.Machine

/-! The section selects (40_frame_builder.md R101, 30_encoding.md R78). -/

theorem sectionOf_eq_some_iff (sec : BitVec 3) (σ : Section) : sectionOf sec = some σ ↔ selectOf σ = sec.toNat := by
  revert sec
  cases σ <;> decide

theorem exists_sectionOf_iff (sec : BitVec 3) : (∃ σ, sectionOf sec = some σ) ↔ sec.toNat ≤ 4 :=
  (sectionOf_some sec).trans decide_eq_true_iff

theorem sectionOf_eq_none_of_ge {sec : BitVec 3} (h : 5 ≤ sec.toNat) : sectionOf sec = none :=
  (sectionOf_none sec).mpr (decide_eq_false (by omega))

/-- Settles O20: the selects by `exists_sectionOf_iff`, the table by reading its five rows. -/
theorem sectionTableDefaults : Obligations.SectionTableDefaults :=
  ⟨exists_sectionOf_iff, by decide⟩

/-- Settles O22: the frame function is the header followed by the two bytes of its checksum. -/
theorem buildRequestLayout : Obligations.BuildRequestLayout :=
  fun T a σ w => ⟨rfl, rfl, frameOf_length a (secAddr T σ) w⟩

/-! Words whose `OP` names a command and whose other fixed bits are wrong (30_encoding.md R77 (b)). -/

/-- The rows of the map are told apart by `OP`, so a word that has a row's `OP` and misses the row is no command. -/
theorem decode_of_opField_of_not_matchesRow {r : OpcodeRow} {cmd : Word} (hr : r ∈ opcodeMap)
    (hop : opField cmd = opField r.matchBits) (hm : ¬ matchesRow r cmd) : decode cmd = .error (illegalReason cmd) := by
  have hdistinct : ∀ r ∈ opcodeMap, ∀ r' ∈ opcodeMap, opField r.matchBits = opField r'.matchBits → r = r' := by decide
  refine decode_of_no_row fun r' hr' hm' => hm ?_
  rw [hdistinct r hr r' hr' (hop.symm.trans (opField_of_matchesRow hr' hm'))]
  exact hm'

/-- Such a word raises `IllegalCommand`. -/
theorem command_of_opField_of_not_matchesRow {r : OpcodeRow} {cmd : Word} (s : State) (hr : r ∈ opcodeMap)
    (hop : opField cmd = opField r.matchBits) (hm : ¬ matchesRow r cmd) :
    command cmd s = .next { s with err := 1#2, eany := true, ecmd := cmd } :=
  command_error cmd _ s (decode_of_opField_of_not_matchesRow hr hop hm)

theorem command_build_illegal (cmd : Word) (s : State) (hop : cmd.extractLsb' 28 4 = 3#4)
    (h : cmd.getLsbD 27 = true ∨ cmd.extractLsb' 0 16 ≠ 0#16) :
    command cmd s = .next { s with err := 1#2, eany := true, ecmd := cmd } := by
  refine command_of_opField_of_not_matchesRow (r := rowBuild) s (by decide) hop ?_
  rw [match_rowBuild]
  rintro ⟨-, hbit, hzero⟩
  exact h.elim (fun hset => Bool.noConfusion (hbit.symm.trans hset)) (· hzero)

theorem command_buildw_illegal (cmd : Word) (s : State) (hop : cmd.extractLsb' 28 4 = 4#4)
    (h : cmd.getLsbD 27 = true) : command cmd s = .next { s with err := 1#2, eany := true, ecmd := cmd } := by
  refine command_of_opField_of_not_matchesRow (r := rowBuildw) s (by decide) hop ?_
  rw [match_rowBuildw]
  rintro ⟨-, hbit⟩
  exact Bool.noConfusion (hbit.symm.trans h)

/-! What a build leaves, read off `Built`. -/

section
variable {a : Byte} {sa w : Half} {s t : State}

/-- The eight bytes with the checksum written as the value of `CRC`. -/
theorem Built.frameBytes_eq (h : Built a sa w s t) :
    frameBytes t =
      [a, Config.funcRead, hiByte sa, loByte sa, hiByte w, loByte w, loByte t.crc, hiByte t.crc] := by
  rw [h.bytes, frameOf_bytes, h.crc]

theorem Built.fbByte_six (h : Built a sa w s t) : fbByte t 6 = loByte t.crc :=
  Option.some.inj (congrArg (·[6]?) h.frameBytes_eq)

theorem Built.fbByte_seven (h : Built a sa w s t) : fbByte t 7 = hiByte t.crc :=
  Option.some.inj (congrArg (·[7]?) h.frameBytes_eq)

end

/-- `frame_o` from the bytes of the buffer. -/
theorem frameBits_of_frameBytes {s : State} {b0 b1 b2 b3 b4 b5 b6 b7 : Byte}
    (h : frameBytes s = [b0, b1, b2, b3, b4, b5, b6, b7]) :
    frameBits s = b0 ++ b1 ++ b2 ++ b3 ++ b4 ++ b5 ++ b6 ++ b7 := by
  simp only [frameBytes, List.cons.injEq] at h
  obtain ⟨rfl, rfl, rfl, rfl, rfl, rfl, rfl, rfl, -⟩ := h
  rfl

/-- The build of 40_frame_builder.md R105's worked example. -/
theorem build_worked_example : ∃ t, command 0x30300000#32 State.reset = .next t ∧
    Built 0x30#8 0x1388#16 0x0011#16 State.reset t ∧ t.crc = 0x4905#16 :=
  ⟨_, (command_ok _ (.build 0x30#8 0#3) _ rfl).trans (exec_build_some _ _ .cellVoltages _ rfl),
    buildWith_built 0x30#8 0x1388#16 0x0011#16 _, by decide +kernel⟩

/-- The build of 40_frame_builder.md R106's worked example. -/
theorem buildw_worked_example : ∃ t, command 0x41300002#32 State.reset = .next t ∧
    Built 0x30#8 0x1399#16 0x0002#16 State.reset t ∧ t.crc = 0x8114#16 :=
  ⟨_, (command_ok _ (.buildw 0x30#8 1#3 0x0002#16) _ rfl).trans (exec_buildw_some _ _ _ .cellTemperatures _ rfl),
    buildWith_built 0x30#8 0x1399#16 0x0002#16 _, by decide +kernel⟩

/-- Settles O23: a select of at most 4 leads to `buildWith`, any other to the fault entry, and a wrong fixed bit to `IllegalCommand`. -/
theorem buildResult : Obligations.BuildResult := by
  refine ⟨fun a sec s h => ?_, fun a sec s h => ?_, command_build_illegal, ?_⟩
  · obtain ⟨σ, hσ⟩ := (exists_sectionOf_iff sec).mpr h
    have hbuilt := buildWith_built a (secAddr s.secrom σ) (secWc s.secrom σ) s
    exact ⟨σ, _, (sectionOf_eq_some_iff sec σ).mp hσ, exec_build_some a sec σ s hσ, hbuilt, hbuilt.bytes⟩
  · exact exec_build_none a sec s (sectionOf_eq_none_of_ge h)
  · obtain ⟨t, hrun, hbuilt, hcrc⟩ := build_worked_example
    have hbytes : frameBytes t = [0x30#8, 0x03#8, 0x13#8, 0x88#8, 0x00#8, 0x11#8, 0x05#8, 0x49#8] := by
      rw [hbuilt.frameBytes_eq, hcrc]
      decide
    exact ⟨t, hrun, hbuilt.addr, hbuilt.saddr, hbuilt.wcnt, hcrc, hbytes, frameBits_of_frameBytes hbytes,
      hbuilt.fvalid, hbuilt.err⟩

/-- Settles O24: as for `BUILD`, whose `buildWith` is that of the canonical count. -/
theorem buildwResult : Obligations.BuildwResult := by
  refine ⟨fun a sec w s h => ?_, fun a sec w s h => ?_, command_buildw_illegal, ?_⟩
  · obtain ⟨σ, hσ⟩ := (exists_sectionOf_iff sec).mpr h
    have hbuilt := buildWith_built a (secAddr s.secrom σ) w s
    have hcanonical : exec (.buildw a sec (secWc s.secrom σ)) s = exec (.build a sec) s := by
      rw [exec_buildw_some a sec _ σ s hσ, exec_build_some a sec σ s hσ]
    exact ⟨σ, _, (sectionOf_eq_some_iff sec σ).mp hσ, exec_buildw_some a sec w σ s hσ, hbuilt, hbuilt.bytes,
      hcanonical⟩
  · exact exec_buildw_none a sec w s (sectionOf_eq_none_of_ge h)
  · obtain ⟨t, hrun, hbuilt, hcrc⟩ := buildw_worked_example
    have hbytes : frameBytes t = [0x30#8, 0x03#8, 0x13#8, 0x99#8, 0x00#8, 0x02#8, 0x14#8, 0x81#8] := by
      rw [hbuilt.frameBytes_eq, hcrc]
      decide
    exact ⟨t, hrun, hbuilt.addr, hbuilt.saddr, hbuilt.wcnt, hcrc, hbytes, hbuilt.fvalid, hbuilt.err⟩

/-- A building word has a next state, and it is a build with the section's address. -/
theorem command_of_buildingWord {cmd : Word} (s : State) (h : BuildingWord cmd) :
    ∃ a σ w t, command cmd s = .next t ∧ Built a (secAddr s.secrom σ) w s t := by
  obtain ⟨i, hi, hbuild, hwell⟩ := h
  rw [command_ok cmd i s hi]
  rcases exec_cases i s with ⟨rfl, -⟩ | ⟨b, rfl, -⟩ | ⟨a, σ, w, -, -, hrun⟩ | ⟨-, hill, -⟩
  · cases hbuild
  · cases hbuild
  · exact ⟨a, σ, w, _, hrun, buildWith_built a _ w s⟩
  · exact Bool.noConfusion (hill.symm.trans hwell)

/-- Two `CRC.BYTE` words, one after the other. -/
theorem commands_two_crcBytes (b b' : Byte) (s : State) :
    commands [encode (.crcByte b), encode (.crcByte b')] s =
      .next { s with crc := crc16Byte (crc16Byte s.crc b) b', err := 0#2 } := by
  rw [commands_cons_of_next _ (command_encode_crcByte b s), commands_cons_of_next _ (command_encode_crcByte b' _)]
  rfl

/-- Settles O29: the checksum bytes of the frame are the bytes of `CRC`, and they take it to zero by the residue (41_crc16.md R141). -/
theorem buildLeavesItsChecksumInCrc : Obligations.BuildLeavesItsChecksumInCrc := by
  intro cmd s h
  obtain ⟨a, σ, w, t, hrun, hbuilt⟩ := command_of_buildingWord s h
  refine ⟨t, _, hrun, ?_, commands_two_crcBytes _ _ t, ?_⟩
  · rw [hbuilt.fbByte_seven, hbuilt.fbByte_six, hiByte_append_loByte]
  · show crc16Byte (crc16Byte t.crc (fbByte t 6)) (fbByte t 7) = 0x0000#16
    rw [hbuilt.fbByte_six, hbuilt.fbByte_seven, crc16Byte_loByte, crc16Byte_hiByte]

end Sys2Proof.Machine
end

