-- ==== Sys2Proof/Proofs/StreamCommands.lean ====
section
/-! PROOFS. The message function (41_crc16.md R134, R137) and the two commands that compute it, `CRC.INIT` (R135) and `CRC.BYTE` (R136). -/

namespace Sys2Proof.Machine

/-! The message function. -/

/-- A further byte is absorbed by one byte step, and nothing is applied after it. -/
theorem crc16_append_singleton (m : List Byte) (b : Byte) : crc16 (m ++ [b]) = crc16Byte (crc16 m) b :=
  crc16From_append Config.crcInit m [b]

/-- Settles O12: the recursion on the last byte, the register values of R134's worked example, and `CRC.INIT` (R137). -/
theorem messageFunctionAbsorbsInOrder : Obligations.MessageFunctionAbsorbsInOrder :=
  ⟨rfl, crc16_append_singleton, by decide, exec_crcInit⟩

/-! `CRC.INIT`. -/

theorem command_crcInit_legal (s : State) :
    command 0x10000000#32 s = .next { s with crc := 0xFFFF#16, err := 0#2 } :=
  command_encode_crcInit s

theorem command_crcInit_illegal (cmd : Word) (s : State) (hop : cmd.extractLsb' 28 4 = 1#4)
    (hzero : cmd.extractLsb' 0 28 ≠ 0#28) :
    command cmd s = .next { s with err := 1#2, eany := true, ecmd := cmd } := by
  refine command_of_opField_of_not_matchesRow (r := rowCrcInit) s (by decide) hop ?_
  rw [match_rowCrcInit_fields]
  exact fun h => hzero h.2

/-- The result of `CRC.INIT` does not depend on `CRC` and `ERR`, the fields it writes, so a second one changes nothing. -/
theorem commands_crcInit_twice (s : State) :
    commands [0x10000000#32, 0x10000000#32] s = commands [0x10000000#32] s := by
  rw [commands_cons_of_next _ (command_crcInit_legal s), commands_cons_of_next _ (command_crcInit_legal s),
    commands_cons_of_next _ (command_crcInit_legal _)]

/-- Settles O16: format N leaves one legal word for `OP` 1, which starts a CRC; every other one misses the row of `CRC.INIT`. -/
theorem crcInitResult : Obligations.CrcInitResult := by
  refine ⟨exec_crcInit, fun cmd s hop => ?_, commands_crcInit_twice, fun s _ => ?_⟩
  · split
    next hzero =>
      obtain rfl : cmd = 0x10000000#32 :=
        (match_rowCrcInit cmd).mp ((match_rowCrcInit_fields cmd).mpr ⟨hop, hzero⟩)
      exact ⟨rfl, command_crcInit_legal s⟩
    next hzero => exact command_crcInit_illegal cmd s hop hzero
  · exact ⟨_, command_crcInit_legal s, rfl, rfl⟩

/-! `CRC.BYTE`. -/

theorem command_crcByte_legal (cmd : Word) (s : State) (hop : cmd.extractLsb' 28 4 = 2#4)
    (hzero : cmd.extractLsb' 8 20 = 0#20) :
    command cmd s = .next { s with crc := crc16Byte s.crc (cmd.extractLsb' 0 8), err := 0#2 } := by
  have hrow : matchesRow rowCrcByte cmd := (match_rowCrcByte cmd).mpr ⟨hop, hzero⟩
  rw [command_ok cmd _ s (decode_of_rowCrcByte hrow), exec_crcByte, byteField]

theorem command_crcByte_illegal (cmd : Word) (s : State) (hop : cmd.extractLsb' 28 4 = 2#4)
    (hzero : cmd.extractLsb' 8 20 ≠ 0#20) :
    command cmd s = .next { s with err := 1#2, eany := true, ecmd := cmd } := by
  refine command_of_opField_of_not_matchesRow (r := rowCrcByte) s (by decide) hop ?_
  rw [match_rowCrcByte]
  exact fun h => hzero h.2

/-- A stream from any register value, with `ERR` already 0, since the empty stream writes nothing. -/
theorem commands_crcBytes (m : List Byte) (c : Half) (s : State) :
    commands (m.map fun b => encode (.crcByte b)) { s with crc := c, err := 0#2 } =
      .next { s with crc := crc16From c m, err := 0#2 } := by
  induction m generalizing c with
  | nil => rfl
  | cons b m ih =>
    rw [List.map_cons, commands_cons_of_next _ (command_encode_crcByte b _)]
    exact ih (crc16Byte c b)

/-- `CRC.INIT` and a `CRC.BYTE` for each byte of a message leave the message's CRC. -/
theorem commands_crcInit_crcBytes (m : List Byte) (s : State) :
    commands (encode .crcInit :: m.map fun b => encode (.crcByte b)) s = .next { s with crc := crc16 m, err := 0#2 } :=
  (commands_cons_of_next _ (command_encode_crcInit s)).trans (commands_crcBytes m Config.crcInit s)

/-- R136's worked example. -/
theorem command_crcByte_worked_example (s : State) (h : s.crc = 0xFFFF#16) :
    ∃ t, command 0x20000001#32 s = .next t ∧ t.crc = 0x807E#16 := by
  refine ⟨_, command_crcByte_legal 0x20000001#32 s (by decide) (by decide), ?_⟩
  show crc16Byte s.crc 0x01#8 = 0x807E#16
  rw [h]
  decide

/-- Settles O17: format D's zero bits decide between one byte step and `IllegalCommand`, and a stream is a fold of byte steps. -/
theorem crcByteResult : Obligations.CrcByteResult := by
  refine ⟨exec_crcByte, fun cmd s hop => ?_, commands_crcInit_crcBytes, command_crcByte_worked_example⟩
  split
  next hzero => exact command_crcByte_legal cmd s hop hzero
  next hzero => exact command_crcByte_illegal cmd s hop hzero

end Sys2Proof.Machine
end

