-- ==== Sys2Proof/Proofs/Exceptions.lean ====
section
/-! PROOFS. The two synchronous faults (60_exceptions.md R160 to R165): which words raise `UnsupportedSection`, and what the fault entry
leaves. A faulting build records its own encoding, which is the word it was decoded from (log 11). -/

namespace Sys2Proof

/-! A word is known by the fields of formats S and W (30_encoding.md R70), so a build's encoding is the word it was decoded from. -/

/-- Words that agree in a field agree in each of its bits. -/
theorem getLsbD_eq_of_extractLsb'_eq {x y : Word} {start len : Nat}
    (h : x.extractLsb' start len = y.extractLsb' start len) {i : Nat} (hlo : start ≤ i) (hhi : i < start + len) :
    x.getLsbD i = y.getLsbD i := by
  have hbit := congrArg (BitVec.getLsbD · (i - start)) h
  simpa [show i - start < len by omega, Nat.add_sub_of_le hlo] using hbit

/-- The five fields cover the word. -/
theorem word_eq_of_fields_eq {x y : Word} (hop : opField x = opField y) (hbit : x.getLsbD 27 = y.getLsbD 27)
    (hsec : secField x = secField y) (haddr : addrField x = addrField y) (hwc : wcField x = wcField y) : x = y := by
  refine BitVec.eq_of_getLsbD_eq fun i hi => ?_
  have hcover : i < 16 ∨ (16 ≤ i ∧ i < 24) ∨ (24 ≤ i ∧ i < 27) ∨ i = 27 ∨ 28 ≤ i := by omega
  rcases hcover with h | ⟨hlo, hhi⟩ | ⟨hlo, hhi⟩ | rfl | h
  · exact getLsbD_eq_of_extractLsb'_eq hwc i.zero_le (by omega)
  · exact getLsbD_eq_of_extractLsb'_eq haddr hlo hhi
  · exact getLsbD_eq_of_extractLsb'_eq hsec hlo hhi
  · exact hbit
  · exact getLsbD_eq_of_extractLsb'_eq hop h hi

/-- The word of a build is the word it was decoded from. -/
theorem encode_of_decode_of_isBuild {cmd : Word} {i : Instr} (h : decode cmd = .ok i)
    (hbuild : Machine.isBuild i = true) : encode i = cmd := by
  cases i with
  | crcInit => cases hbuild
  | crcByte b => cases hbuild
  | build a sec =>
    obtain ⟨hrow, haddr, hsec⟩ := (decode_eq_build_iff cmd a sec).mp h
    obtain ⟨hop, hbit, hwc⟩ := (match_rowBuild cmd).mp hrow
    obtain ⟨esec, eaddr, ewc, ebit⟩ := fields_build a sec
    exact word_eq_of_fields_eq ((opField_build a sec).trans hop.symm) (ebit.trans hbit.symm) (esec.trans hsec.symm)
      (eaddr.trans haddr.symm) (ewc.trans hwc.symm)
  | buildw a sec w =>
    obtain ⟨hrow, haddr, hsec, hwc⟩ := (decode_eq_buildw_iff cmd a sec w).mp h
    obtain ⟨hop, hbit⟩ := (match_rowBuildw cmd).mp hrow
    obtain ⟨esec, eaddr, ewc, ebit⟩ := fields_buildw a sec w
    exact word_eq_of_fields_eq ((opField_buildw a sec w).trans hop.symm) (ebit.trans hbit.symm)
      (esec.trans hsec.symm) (eaddr.trans haddr.symm) (ewc.trans hwc.symm)

end Sys2Proof

namespace Sys2Proof.Machine

/-- A select that names no section is 5, 6 or 7 (30_encoding.md R78). -/
theorem selectNamed_eq_false_iff (sec : BitVec 3) : selectNamed sec = false ↔ 5 ≤ sec.toNat := by
  rw [selectNamed, decide_eq_false_iff_not, not_le, Nat.lt_iff_add_one_le]

/-- A build is well typed by the select bits of its word. -/
theorem wellTyped_of_decode_of_isBuild {cmd : Word} {i : Instr} (h : decode cmd = .ok i) (hbuild : isBuild i = true) :
    i.wellTyped = selectNamed (secField cmd) := by
  cases i with
  | crcInit => cases hbuild
  | crcByte b => cases hbuild
  | build a sec =>
    obtain ⟨-, -, rfl⟩ := (decode_eq_build_iff cmd a sec).mp h
    rfl
  | buildw a sec w =>
    obtain ⟨-, -, rfl, -⟩ := (decode_eq_buildw_iff cmd a sec w).mp h
    rfl

/-- A command that is not well typed is a build, and it takes the fault entry with its own word. -/
theorem command_of_not_wellTyped {cmd : Word} {i : Instr} (s : State) (h : decode cmd = .ok i)
    (hill : i.wellTyped = false) :
    isBuild i = true ∧ command cmd s = .next { s with err := 2#2, eany := true, ecmd := cmd } := by
  rcases exec_cases i s with ⟨rfl, -⟩ | ⟨b, rfl, -⟩ | ⟨-, -, -, -, hwell, -⟩ | ⟨hbuild, -, hrun⟩
  · cases hill
  · cases hill
  · exact Bool.noConfusion (hill.symm.trans hwell)
  · refine ⟨hbuild, ?_⟩
    rw [command_ok cmd i s h, hrun, encode_of_decode_of_isBuild h hbuild]
    rfl

/-- A well-typed command takes the success exit (60_exceptions.md R167). -/
theorem exec_of_wellTyped {i : Instr} (s : State) (hwell : i.wellTyped = true) :
    ∃ t, exec i s = .next t ∧ t.err = 0#2 ∧ t.eany = s.eany ∧ t.ecmd = s.ecmd := by
  rcases exec_cases i s with ⟨-, hexec⟩ | ⟨b, -, hexec⟩ | ⟨a, σ, w, -, -, hexec⟩ | ⟨-, hill, -⟩
  · exact ⟨_, hexec, rfl, rfl, rfl⟩
  · exact ⟨_, hexec, rfl, rfl, rfl⟩
  · exact ⟨_, hexec, rfl, rfl, rfl⟩
  · exact Bool.noConfusion (hill.symm.trans hwell)

/-- Code 2 is left by commands that are not well typed alone: the others leave 0, and a word that is no command leaves 1. -/
theorem not_wellTyped_of_command_err {cmd : Word} {s t : State} (hrun : command cmd s = .next t)
    (herr : t.err = 2#2) : ∃ i, decode cmd = .ok i ∧ i.wellTyped = false := by
  cases hdecode : decode cmd with
  | error e =>
    cases (command_error cmd e s hdecode).symm.trans hrun
    exact absurd herr (by simp [errCode])
  | ok i =>
    refine ⟨i, rfl, Bool.eq_false_iff.mpr fun hwell => ?_⟩
    obtain ⟨t', hexec, hzero, -⟩ := exec_of_wellTyped s hwell
    cases hexec.symm.trans ((command_ok cmd i s hdecode).symm.trans hrun)
    exact absurd (hzero.symm.trans herr) (by decide)

/-- Settles O32: a reserved select makes a build ill typed, so it faults with its own word, and nothing else leaves code 2. -/
theorem unsupportedSectionFault : Obligations.UnsupportedSectionFault := by
  intro cmd s
  refine ⟨fun a sec h hsec => ?_, fun a sec w h hsec => ?_, fun t hrun herr => ?_⟩
  · obtain ⟨-, -, hfield⟩ := (decode_eq_build_iff cmd a sec).mp h
    obtain ⟨-, hrun⟩ := command_of_not_wellTyped s h ((selectNamed_eq_false_iff sec).mpr hsec)
    exact ⟨hrun, hfield⟩
  · obtain ⟨-, -, hfield, -⟩ := (decode_eq_buildw_iff cmd a sec w).mp h
    obtain ⟨-, hrun⟩ := command_of_not_wellTyped s h ((selectNamed_eq_false_iff sec).mpr hsec)
    exact ⟨hrun, hfield⟩
  · obtain ⟨i, hdecode, hill⟩ := not_wellTyped_of_command_err hrun herr
    obtain ⟨hbuild, -⟩ := command_of_not_wellTyped s hdecode hill
    rw [wellTyped_of_decode_of_isBuild hdecode hbuild, selectNamed_eq_false_iff] at hill
    exact ⟨i, hdecode, hbuild, hill⟩

/-- A word faults in one of two ways: it is no command, or its command is not well typed. -/
theorem faultingWord_iff (cmd : Word) :
    FaultingWord cmd ↔ (∃ e, decode cmd = .error e) ∨ ∃ i, decode cmd = .ok i ∧ i.wellTyped = false := by
  unfold FaultingWord
  cases decode cmd <;> simp

/-- Settles O35: either way of faulting takes the fault entry, which writes the three error registers. -/
theorem faultsArePrecise : Obligations.FaultsArePrecise := by
  intro cmd s h
  rcases (faultingWord_iff cmd).mp h with ⟨e, herror⟩ | ⟨i, hdecode, hill⟩
  · exact .inl ⟨⟨e, herror⟩, command_error cmd e s herror⟩
  · obtain ⟨hbuild, hrun⟩ := command_of_not_wellTyped s hdecode hill
    exact .inr ⟨⟨i, hdecode, hbuild⟩, hrun⟩

end Sys2Proof.Machine
end

