-- ==== Sys2Proof/Proofs/MicroSteps.lean ====
section
/-! PROOFS. The micro-steps carry an accepted word to the command-level result (40_frame_builder.md R112, 41_crc16.md R133): the turns of the
loop of `SEQ` first, then each command from acceptance to the release M9, which overwrites all hidden state. -/

namespace Sys2Proof.Machine

/-- The place of the sequencer before header byte `n` of a build, and past the last of the six at the checksum (40_frame_builder.md R112). -/
def atHeaderByte (n : Nat) (s : State) : State :=
  { s with bitn := 0#4, idx := BitVec.ofNat 4 n, phase := if n < 6 then .select else .crcLow }

/-- One turn of the loop of `SEQ` emits one header byte. -/
theorem microRun_turn_atHeaderByte {n : Nat} (hn : n < 6) (s : State) :
    microRun 10 (atHeaderByte n s) = atHeaderByte (n + 1) (emitHeaderByte s (Fin.ofNat 8 n)) := by
  have hphase : (atHeaderByte n s).phase = .select := if_pos hn
  rw [microRun_turn _ hphase]
  interval_cases n <;> rfl

/-- The turns that are left of the loop emit the header bytes that are left. -/
theorem microRun_turns (k : Nat) {n : Nat} (h : n + k = 6) (s : State) :
    microRun (10 * k) (atHeaderByte n s) =
      atHeaderByte 6 (((List.range' n k).map (Fin.ofNat 8)).foldl emitHeaderByte s) := by
  induction k generalizing n s with
  | zero =>
    obtain rfl : n = 6 := h
    rfl
  | succ k ih =>
    rw [Nat.mul_succ, Nat.add_comm, microRun_add, microRun_turn_atHeaderByte (by omega), ih (by omega)]
    rfl

/-- M6 to M9: the two bytes of the checksum, the success exit and the release. -/
theorem microRun_checksum (s : State) :
    microRun 4 (atHeaderByte 6 s) = microRelease (succeed (markValid (emitByte (emitByte s 6) 7))) :=
  microRun_tail (atHeaderByte 6 s) rfl

/-- M2 to M9: a build of a known section is built and released. -/
theorem microRun_load {s : State} {a : Byte} {sa w : Half} (hphase : s.phase = .load)
    (hops : microOperands s = some (a, sa, w)) : microRun 65 s = microRelease (buildWith a sa w s) := by
  have hload : microStep s = atHeaderByte 0 (setCrc Config.crcInit (loadOperands a sa w s)) := by
    simp [microStep, microLoad, hphase, hops, atHeaderByte]
  calc microRun 65 s
      = microRun 64 (atHeaderByte 0 (setCrc Config.crcInit (loadOperands a sa w s))) := congrArg (microRun 64) hload
    _ = microRun 4 (microRun (10 * 6) (atHeaderByte 0 (setCrc Config.crcInit (loadOperands a sa w s)))) :=
      microRun_add 60 4 _
    _ = microRelease (buildWith a sa w s) := by
      rw [microRun_turns 6 rfl, microRun_checksum]
      rfl

/-- M1 sends a build to M2 when its select names a section, and to the release with a fault when not. -/
theorem microDecode_of_isBuild {s : State} {i : Instr} (h : decode s.cmdr = .ok i) (hbuild : isBuild i = true) :
    microDecode s = if i.wellTyped then { s with phase := .load }
      else { raiseFault .unsupportedSection s.cmdr s with phase := .release } := by
  cases i with
  | crcInit => cases hbuild
  | crcByte b => cases hbuild
  | build a sec =>
    simp only [microDecode, h, Instr.wellTyped, selectNamed, decide_eq_true_eq, gt_iff_lt, ← not_lt, ite_not]
  | buildw a sec w =>
    simp only [microDecode, h, Instr.wellTyped, selectNamed, decide_eq_true_eq, gt_iff_lt, ← not_lt, ite_not]

/-- The operands that M2 loads are those the command builds with. -/
theorem exists_microOperands {cmd : Word} {i : Instr} (s : State) (h : decode cmd = .ok i) (hbuild : isBuild i = true)
    (hwell : i.wellTyped = true) :
    ∃ a sa w, microOperands (accept cmd s) = some (a, sa, w) ∧ exec i s = .next (buildWith a sa w s) := by
  cases i with
  | crcInit => cases hbuild
  | crcByte b => cases hbuild
  | build a sec =>
    obtain ⟨σ, hσ⟩ := (sectionOf_some sec).mpr hwell
    exact ⟨a, _, _, by simp [microOperands, h, hσ], exec_build_some a sec σ s hσ⟩
  | buildw a sec w =>
    obtain ⟨σ, hσ⟩ := (sectionOf_some sec).mpr hwell
    exact ⟨a, _, w, by simp [microOperands, h, hσ], exec_buildw_some a sec w σ s hσ⟩

/-- The end of the execution is the state in which the micro-steps come to rest. -/
theorem drain_of_microRun {n : Nat} {s t : State} (hn : n ≤ microBound) (hrun : microRun n s = microRelease t) :
    drain s = microRelease t := by
  rw [drain, ← Nat.add_sub_of_le hn, microRun_add, hrun]
  exact microRun_idle _ _ rfl

/-- M1 finds a fault: the fault entry, then the release. -/
theorem drain_accept_of_fault {cmd : Word} {s : State} {k : FaultCode}
    (h : microDecode (accept cmd s) = { raiseFault k cmd (accept cmd s) with phase := .release }) :
    drain (accept cmd s) = microRelease (raiseFault k cmd s) :=
  drain_of_microRun (n := 2) (by decide) (congrArg microStep h)

/-- The release forgets which word was accepted and at which phase its build began. -/
theorem microRelease_buildWith_accept (cmd : Word) (ph : Phase) (a : Byte) (sa w : Half) (s : State) :
    microRelease (buildWith a sa w { accept cmd s with phase := ph }) = microRelease (buildWith a sa w s) := by
  rw [buildWith_eq, buildWith_eq a sa w s, buildWith_fb, buildWith_fb]
  rfl

/-- M1 finds a build of a known section. -/
theorem drain_accept_of_load {cmd : Word} {s : State} {a : Byte} {sa w : Half}
    (h : microDecode (accept cmd s) = { accept cmd s with phase := .load })
    (hops : microOperands (accept cmd s) = some (a, sa, w)) :
    drain (accept cmd s) = microRelease (buildWith a sa w s) := by
  refine drain_of_microRun (n := 1 + 65) (by decide) ?_
  rw [microRun_add, show microRun 1 (accept cmd s) = _ from h,
    microRun_load (s := { accept cmd s with phase := .load }) rfl hops, microRelease_buildWith_accept]

/-- `CRC.INIT`: the register is set, then the success exit and the release. -/
theorem drain_accept_crcInit {cmd : Word} (s : State) (h : decode cmd = .ok .crcInit) :
    drain (accept cmd s) = microRelease (succeed (setCrc Config.crcInit s)) := by
  have hdecode : microDecode (accept cmd s) = { accept cmd s with phase := .streamInit } := by
    simp [microDecode, h]
  exact drain_of_microRun (n := 4) (by decide) (congrArg (microRun 3) hdecode)

/-- `CRC.BYTE`: the exclusive or and eight bit steps absorb the byte, then the success exit and the release. -/
theorem drain_accept_crcByte {cmd : Word} {b : Byte} (s : State) (h : decode cmd = .ok (.crcByte b)) :
    drain (accept cmd s) = microRelease (succeed (setCrc (crc16Byte s.crc b) s)) := by
  obtain ⟨-, rfl⟩ := (decode_eq_crcByte_iff cmd b).mp h
  have hdecode : microDecode (accept cmd s) = { accept cmd s with phase := .streamXor } := by
    simp [microDecode, h]
  refine drain_of_microRun (n := 1 + 1 + 8 + 2) (by decide) ?_
  rw [microRun_add, microRun_add, microRun_add, show microRun 1 (accept cmd s) = _ from hdecode,
    microRun_streamBits _ rfl rfl]
  rfl

/-- Acceptance and the micro-steps after it end in the release of the command-level result, for every word and from every state. -/
theorem drain_accept {cmd : Word} {s t : State} (h : command cmd s = .next t) :
    drain (accept cmd s) = microRelease t := by
  cases hdecode : decode cmd with
  | error e =>
    cases (command_error cmd e s hdecode).symm.trans h
    exact drain_accept_of_fault (by simp [microDecode, hdecode])
  | ok i =>
    rw [command_ok cmd i s hdecode] at h
    rcases exec_cases i s with ⟨rfl, hexec⟩ | ⟨b, rfl, hexec⟩ | ⟨-, -, -, hbuild, hwell, -⟩ | ⟨hbuild, hill, hexec⟩
    · cases hexec.symm.trans h
      exact drain_accept_crcInit s hdecode
    · cases hexec.symm.trans h
      exact drain_accept_crcByte s hdecode
    · obtain ⟨a, sa, w, hops, hexec⟩ := exists_microOperands s hdecode hbuild hwell
      cases hexec.symm.trans h
      exact drain_accept_of_load ((microDecode_of_isBuild hdecode hbuild).trans (if_pos hwell)) hops
    · cases hexec.symm.trans h
      rw [encode_of_decode_of_isBuild hdecode hbuild]
      exact drain_accept_of_fault ((microDecode_of_isBuild hdecode hbuild).trans (if_neg (by simp [hill])))

end Sys2Proof.Machine
end

