-- ==== Sys2Proof/Proofs/Completion.lean ====
section
/-! PROOFS. From acceptance to completion at the clocked level (70_reset_and_hazards.md R202, R203): the edges before the last count down,
and the last one carries the command to its end. -/

namespace Sys2Proof.Machine

/-- Every word has a command-level result, and no command reads or writes the hidden state and the model's own fields. -/
theorem exists_command_next (cmd : Word) (s : State) : ∃ t, command cmd s = .next t ∧ SameOutside s t := by
  cases hdecode : decode cmd with
  | error e => exact ⟨_, command_error cmd e s hdecode, rfl, rfl, rfl, rfl, rfl, rfl, rfl, rfl, rfl, rfl⟩
  | ok i =>
    rw [command_ok cmd i s hdecode]
    rcases exec_cases i s with ⟨-, hexec⟩ | ⟨b, -, hexec⟩ | ⟨a, σ, w, -, -, hexec⟩ | ⟨-, -, hexec⟩
    · exact ⟨_, hexec, rfl, rfl, rfl, rfl, rfl, rfl, rfl, rfl, rfl, rfl⟩
    · exact ⟨_, hexec, rfl, rfl, rfl, rfl, rfl, rfl, rfl, rfl, rfl, rfl⟩
    · exact ⟨_, hexec, (buildWith_built a _ w s).rest⟩
    · exact ⟨_, hexec, rfl, rfl, rfl, rfl, rfl, rfl, rfl, rfl, rfl, rfl⟩

/-- The edge of acceptance (70_reset_and_hazards.md R203). -/
theorem edge_of_accepting {p : PortIn} {s : State} (hrst : p.rst = false) (hseen : s.resetSeen = true)
    (hbusy : s.busy = false) (hvalid : p.cmdValid = true) : edge p s = .next (acceptEdge p.cmd s) := by
  simp [edge, hrst, hseen, hbusy, hvalid]

/-- While a command executes, an edge without reset depends on nothing the ports show (70_reset_and_hazards.md R203). -/
theorem edge_of_busy {p : PortIn} {s : State} (hrst : p.rst = false) (hseen : s.resetSeen = true)
    (hbusy : s.busy = true) : edge p s = .next (busyEdge s) := by
  simp [edge, hrst, hseen, hbusy]

/-- An edge before the completing one. -/
theorem edge_of_counting {p : PortIn} {s : State} {n : Nat} (hrst : p.rst = false) (hseen : s.resetSeen = true)
    (hbusy : s.busy = true) (hn : s.wait = n + 1) : edge p s = .next { s with wait := n } := by
  rw [edge_of_busy hrst hseen hbusy, busyEdge, hn]

/-- The completing edge. -/
theorem edge_of_completing {p : PortIn} {s : State} (hrst : p.rst = false) (hseen : s.resetSeen = true)
    (hbusy : s.busy = true) (hn : s.wait = 0) : edge p s = .next (drain { s with wait := 0 }) := by
  rw [edge_of_busy hrst hseen hbusy, busyEdge, hn]
  exact congrArg (fun n => Host.Outcome.next (drain { s with wait := n })) hn

theorem edges_cons_of_next {p : PortIn} {s t : State} (l : List PortIn) (h : edge p s = .next t) :
    edges (p :: l) s = edges l t := by
  simp [edges, h]

/-- The edges before the completing one count down and change nothing else. -/
theorem edges_before_completion {l : List PortIn} {s : State} (hl : ∀ q ∈ l, q.rst = false)
    (hseen : s.resetSeen = true) (hbusy : s.busy = true) (hlen : l.length ≤ s.wait) :
    edges l s = .next { s with wait := s.wait - l.length } := by
  induction l generalizing s with
  | nil => rfl
  | cons q l ih =>
    obtain ⟨hq, hrest⟩ := List.forall_mem_cons.mp hl
    rw [List.length_cons] at hlen
    obtain ⟨n, hn⟩ := Nat.exists_eq_add_one.mpr (Nat.zero_lt_of_lt hlen)
    rw [hn, Nat.add_le_add_iff_right] at hlen
    rw [edges_cons_of_next l (edge_of_counting hq hseen hbusy hn), ih (s := { s with wait := n }) hrest hseen hbusy hlen]
    simp [hn]

/-- The edge after the count has run out carries the command to its end. -/
theorem edges_to_completion {l : List PortIn} {s : State} (hl : ∀ q ∈ l, q.rst = false)
    (hseen : s.resetSeen = true) (hbusy : s.busy = true) (hlen : l.length = s.wait + 1) :
    edges l s = .next (drain { s with wait := 0 }) := by
  induction l generalizing s with
  | nil => cases hlen
  | cons q l ih =>
    obtain ⟨hq, hrest⟩ := List.forall_mem_cons.mp hl
    obtain hlen : l.length = s.wait := Nat.succ.inj hlen
    cases hn : s.wait with
    | zero =>
      obtain rfl : l = [] := List.eq_nil_of_length_eq_zero (hlen.trans hn)
      exact edges_cons_of_next [] (edge_of_completing hq hseen hbusy hn)
    | succ n =>
      rw [edges_cons_of_next l (edge_of_counting hq hseen hbusy hn)]
      exact ih hrest hseen hbusy (hlen.trans hn)

/-- The release of a result whose hidden state is at rest is the result itself, but for the dead latch and the count of draws. -/
theorem microRelease_of_idle {t : State} (h : Idle t) :
    microRelease t = { t with cmdr := Config.deadLatch t.draws, draws := t.draws + 1 } := by
  obtain ⟨hbusy, hphase, hidx, hbitn, hwait⟩ := h
  simp [microRelease, retire, hbusy, hphase, hidx, hbitn, hwait]

/-- A command keeps the idle state. -/
theorem SameOutside.idle {s t : State} (h : SameOutside s t) (hs : Idle s) : Idle t := by
  obtain ⟨hbusy, hphase, hidx, hbitn, hwait⟩ := hs
  exact ⟨h.busy.trans hbusy, h.phase.trans hphase, h.idx.trans hidx, h.bitn.trans hbitn, h.wait.trans hwait⟩

/-- The draw at acceptance does not show in the command-level result. -/
theorem command_draws {cmd : Word} {s t : State} (h : command cmd s = .next t) (hsame : SameOutside s t) (d : Nat) :
    command cmd { s with draws := d } = .next { t with draws := d } :=
  (command_outside cmd s.cmdr d s.port s t h).trans (by rw [← hsame.cmdr, ← hsame.port])

/-- What the completing edge leaves of a word that an idle block accepted: the command-level result, with the dead latch and the count
of draws (70_reset_and_hazards.md R202). -/
theorem drain_acceptEdge {cmd : Word} {s t : State} (hidle : Idle s) (h : command cmd s = .next t)
    (hsame : SameOutside s t) :
    drain { acceptEdge cmd s with wait := 0 } =
      { t with cmdr := Config.deadLatch (s.draws + 1), draws := s.draws + 2 } := by
  have ⟨_, _, _, _, hwait⟩ := hidle
  have haccept : { acceptEdge cmd s with wait := 0 } = accept cmd { s with draws := s.draws + 1 } := by
    rw [← hwait]
    rfl
  rw [haccept, drain_accept (command_draws h hsame _)]
  exact microRelease_of_idle (t := { t with draws := s.draws + 1 }) (hsame.idle hidle)

/-- Settles O54: the count drawn at acceptance says how many edges pass before the completing one, whatever the ports show, and
that one leaves the command-level result. -/
theorem acceptedCommandsComplete : Obligations.AcceptedCommandsComplete := by
  intro p s hseen hidle hrst hvalid
  have hedges (l : List PortIn) : edges (p :: l) s = edges l (acceptEdge p.cmd s) :=
    edges_cons_of_next l (edge_of_accepting hrst hseen hidle.1 hvalid)
  refine ⟨Config.commandEdges s.draws + 1, Nat.le_add_left 1 _, fun l hl hlen => ?_, fun l hl hlen => ?_⟩
  · have hbefore := edges_before_completion (s := acceptEdge p.cmd s) hl hseen rfl (Nat.le_of_lt_succ hlen)
    exact ⟨_, (hedges l).trans hbefore, rfl⟩
  · obtain ⟨v, hv, hsame⟩ := exists_command_next p.cmd s
    have hlast := edges_to_completion (s := acceptEdge p.cmd s) hl hseen rfl hlen
    rw [drain_acceptEdge hidle hv hsame] at hlast
    exact ⟨_, v, (hedges l).trans hlast, hv, hsame.idle hidle, rfl⟩

end Sys2Proof.Machine
end

