-- ==== Sys2Proof/Proofs/RoundTrip.lean ====
section
/-! PROOFS. Decoding and encoding are inverse to each other (30_encoding.md R70 to R76, R82), so the words of a command are counted by its
operands (R75). -/

namespace Sys2Proof

/-- A build's word matches its row and holds its operands. -/
theorem decode_encode_build (a : Byte) (sec : BitVec 3) : decode (encode (.build a sec)) = .ok (.build a sec) := by
  obtain ⟨hsec, haddr, hwc, hbit⟩ := fields_build a sec
  exact (decode_eq_build_iff _ a sec).mpr ⟨(match_rowBuild _).mpr ⟨opField_build a sec, hbit, hwc⟩, haddr, hsec⟩

theorem decode_encode_buildw (a : Byte) (sec : BitVec 3) (w : Half) :
    decode (encode (.buildw a sec w)) = .ok (.buildw a sec w) := by
  obtain ⟨hsec, haddr, hwc, hbit⟩ := fields_buildw a sec w
  exact (decode_eq_buildw_iff _ a sec w).mpr ⟨(match_rowBuildw _).mpr ⟨opField_buildw a sec w, hbit⟩, haddr, hsec, hwc⟩

/-- Settles O4: the word of each command matches the command's row and holds its operands. -/
theorem decodeOfEncodeIsTheCommand : Obligations.DecodeOfEncodeIsTheCommand := by
  intro i
  cases i with
  | crcInit => rfl
  | crcByte b => exact Machine.decode_encode_crcByte b
  | build a sec => exact decode_encode_build a sec
  | buildw a sec w => exact decode_encode_buildw a sec w

/-- The three fields of format D cover the word (30_encoding.md R72). -/
theorem word_eq_of_byteFields_eq {x y : Word} (hop : opField x = opField y)
    (hzero : x.extractLsb' 8 20 = y.extractLsb' 8 20) (hbyte : byteField x = byteField y) : x = y := by
  refine BitVec.eq_of_getLsbD_eq fun i hi => ?_
  have hcover : i < 8 ∨ (8 ≤ i ∧ i < 28) ∨ 28 ≤ i := by omega
  rcases hcover with h | ⟨hlo, hhi⟩ | h
  · exact getLsbD_eq_of_extractLsb'_eq hbyte i.zero_le (by omega)
  · exact getLsbD_eq_of_extractLsb'_eq hzero hlo hhi
  · exact getLsbD_eq_of_extractLsb'_eq hop h hi

/-- Settles O5: a row fixes every bit of the word that is no operand. -/
theorem encodeOfDecodeIsTheWord : Obligations.EncodeOfDecodeIsTheWord := by
  intro cmd i h
  cases i with
  | crcInit => exact ((match_rowCrcInit cmd).mp ((decode_eq_crcInit_iff cmd).mp h)).symm
  | crcByte b =>
    obtain ⟨hrow, hbyte⟩ := (decode_eq_crcByte_iff cmd b).mp h
    obtain ⟨hop, hzero⟩ := (match_rowCrcByte cmd).mp hrow
    exact word_eq_of_byteFields_eq ((opField_crcByte b).trans hop.symm) ((zeroBits_crcByte b).trans hzero.symm)
      ((byteField_crcByte b).trans hbyte.symm)
  | build a sec => exact encode_of_decode_of_isBuild h rfl
  | buildw a sec w => exact encode_of_decode_of_isBuild h rfl

/-- Each command has one word and each legal word one command. -/
theorem decode_eq_ok_iff (cmd : Word) (i : Instr) : decode cmd = .ok i ↔ encode i = cmd := by
  constructor
  · exact encodeOfDecodeIsTheWord cmd i
  · rintro rfl
    exact decodeOfEncodeIsTheCommand i

theorem encode_injective : Function.Injective encode := fun i i' h =>
  Except.ok.inj ((decodeOfEncodeIsTheCommand i).symm.trans ((decode_eq_ok_iff _ i').mpr h.symm))

/-! How many words decode (30_encoding.md R75). -/

/-- As many words decode to a family of commands as the family has members. -/
theorem card_decode_of_injective {α : Type} {P : Word → Prop} {n : Nat} (f : α → Instr) (hf : Function.Injective f)
    (hP : ∀ cmd, P cmd ↔ ∃ x, decode cmd = .ok (f x)) (hn : Nat.card α = n) : Nat.card { cmd : Word // P cmd } = n := by
  simp only [hP, decode_eq_ok_iff]
  exact (Nat.card_range_of_injective (encode_injective.comp hf)).trans hn

theorem card_bitVec (n : Nat) : Nat.card (BitVec n) = 2 ^ n :=
  (Nat.card_congr BitVec.equivFin.toEquiv).trans (Nat.card_fin _)

/-- The selects that name a section are 0 to 4 (30_encoding.md R78). -/
theorem card_select_le_four : Nat.card { sec : BitVec 3 // sec.toNat ≤ 4 } = 5 := by
  rw [Nat.card_eq_fintype_card]
  decide

/-- A command is its constructor with its operands. -/
def instrEquiv : Unit ⊕ Byte ⊕ (Byte × BitVec 3) ⊕ (Byte × BitVec 3 × Half) ≃ Instr where
  toFun
    | .inl _ => .crcInit
    | .inr (.inl b) => .crcByte b
    | .inr (.inr (.inl (a, sec))) => .build a sec
    | .inr (.inr (.inr (a, sec, w))) => .buildw a sec w
  invFun
    | .crcInit => .inl ()
    | .crcByte b => .inr (.inl b)
    | .build a sec => .inr (.inr (.inl (a, sec)))
    | .buildw a sec w => .inr (.inr (.inr (a, sec, w)))
  left_inv := by rintro (_ | _ | _ | _) <;> rfl
  right_inv := by rintro (_ | _ | _ | _) <;> rfl

/-- Settles O3: the words are counted by the operands of the command, each of its own width. -/
theorem decodeCounts : Obligations.DecodeCounts := by
  refine ⟨?_, ?_, ?_, ?_, ?_, ?_, ?_⟩
  · exact card_decode_of_injective (fun _ : Unit => .crcInit) (fun _ _ _ => rfl) (fun cmd => by simp) Nat.card_unique
  · exact card_decode_of_injective .crcByte (fun _ _ h => by simpa using h) (fun cmd => Iff.rfl) (card_bitVec 8)
  · refine card_decode_of_injective (fun x : Byte × BitVec 3 => .build x.1 x.2) ?_ (fun cmd => by simp) ?_
    · exact fun _ _ h => by simpa [Prod.ext_iff] using h
    · simp only [Nat.card_prod, card_bitVec]
      norm_num
  · refine card_decode_of_injective (fun x : Byte × { sec : BitVec 3 // sec.toNat ≤ 4 } => .build x.1 x.2) ?_
      (fun cmd => by simp [and_comm]) ?_
    · exact fun _ _ h => by simpa [Prod.ext_iff, Subtype.ext_iff] using h
    · simp only [Nat.card_prod, card_bitVec, card_select_le_four]
      norm_num
  · refine card_decode_of_injective (fun x : Byte × BitVec 3 × Half => .buildw x.1 x.2.1 x.2.2) ?_
      (fun cmd => by simp) ?_
    · exact fun _ _ h => by simpa [Prod.ext_iff] using h
    · simp only [Nat.card_prod, card_bitVec]
      norm_num
  · refine card_decode_of_injective
      (fun x : Byte × { sec : BitVec 3 // sec.toNat ≤ 4 } × Half => .buildw x.1 x.2.1 x.2.2) ?_
      (fun cmd => by simp [and_comm]) ?_
    · exact fun _ _ h => by simpa [Prod.ext_iff, Subtype.ext_iff] using h
    · simp only [Nat.card_prod, card_bitVec, card_select_le_four]
      norm_num
  · refine card_decode_of_injective instrEquiv instrEquiv.injective (fun cmd => instrEquiv.surjective.exists) ?_
    simp only [Nat.card_sum, Nat.card_prod, Nat.card_unique, card_bitVec]
    norm_num

end Sys2Proof
end

