-- ==== Sys2Proof/Proofs/Encodings.lean ====
section
/-! PROOFS. The reserved and illegal encodings (30_encoding.md R77), and the words of the assembler's lines as numbers (R82). -/

namespace Sys2Proof.Machine

/-! The words that are no command (30_encoding.md R77 (a), (b)). -/

/-- The word has an unassigned `OP`, or a 1 in a must-be-zero bit of its format. -/
def IllegalForm (cmd : Word) : Prop :=
  opField cmd = 0#4 ∨ 5 ≤ (opField cmd).toNat ∨ (opField cmd = 1#4 ∧ cmd.extractLsb' 0 28 ≠ 0#28) ∨
    (opField cmd = 2#4 ∧ cmd.extractLsb' 8 20 ≠ 0#20) ∨
    (opField cmd = 3#4 ∧ (cmd.getLsbD 27 = true ∨ wcField cmd ≠ 0#16)) ∨ (opField cmd = 4#4 ∧ cmd.getLsbD 27 = true)

theorem command_of_illegalForm {cmd : Word} (s : State) (h : IllegalForm cmd) :
    command cmd s = .next { s with err := 1#2, eany := true, ecmd := cmd } := by
  rcases h with h | h | ⟨hop, h⟩ | ⟨hop, h⟩ | ⟨hop, h⟩ | ⟨hop, h⟩
  · exact command_error cmd _ s (decode_of_unassigned (.inl h))
  · exact command_error cmd _ s (decode_of_unassigned (.inr h))
  · exact command_crcInit_illegal cmd s hop h
  · exact command_crcByte_illegal cmd s hop h
  · exact command_build_illegal cmd s hop h
  · exact command_buildw_illegal cmd s hop h

/-- A word without a defect of form matches the row of its `OP`. -/
theorem exists_matchesRow_of_not_illegalForm {cmd : Word} (h : ¬ IllegalForm cmd) : ∃ r ∈ opcodeMap, matchesRow r cmd := by
  simp only [IllegalForm, not_or, not_and, Decidable.not_not, Bool.not_eq_true] at h
  obtain ⟨hzero, hlarge, hinit, hbyte, hbuild, hbuildw⟩ := h
  have hassigned : ∀ op : BitVec 4, op ≠ 0#4 → ¬ 5 ≤ op.toNat → op = 1#4 ∨ op = 2#4 ∨ op = 3#4 ∨ op = 4#4 := by decide
  rcases hassigned _ hzero hlarge with hop | hop | hop | hop
  · exact ⟨rowCrcInit, by decide, (match_rowCrcInit_fields cmd).mpr ⟨hop, hinit hop⟩⟩
  · exact ⟨rowCrcByte, by decide, (match_rowCrcByte cmd).mpr ⟨hop, hbyte hop⟩⟩
  · exact ⟨rowBuild, by decide, (match_rowBuild cmd).mpr ⟨hop, hbuild hop⟩⟩
  · exact ⟨rowBuildw, by decide, (match_rowBuildw cmd).mpr ⟨hop, hbuildw hop⟩⟩

/-- The commands with `OP` 3 and 4 are the builds. -/
theorem isBuild_iff_opField {cmd : Word} {i : Instr} (h : decode cmd = .ok i) :
    isBuild i = true ↔ opField cmd = 3#4 ∨ opField cmd = 4#4 := by
  rw [opField_of_matchesRow (rowOf_mem_opcodeMap i) (matchesRow_of_decode h)]
  cases i <;> simp only [isBuild, rowOf] <;> decide

/-- A stream command has no select, so it is well typed. -/
theorem wellTyped_of_not_isBuild {i : Instr} (h : isBuild i ≠ true) : i.wellTyped = true := by
  cases i with
  | crcInit => rfl
  | crcByte b => rfl
  | build a sec => exact absurd rfl h
  | buildw a sec w => exact absurd rfl h

/-- A command is ill typed when it is a build and its select bits are 5 or more. -/
theorem wellTyped_eq_false_iff {cmd : Word} {i : Instr} (h : decode cmd = .ok i) :
    i.wellTyped = false ↔ (opField cmd = 3#4 ∨ opField cmd = 4#4) ∧ 5 ≤ (secField cmd).toNat := by
  by_cases hbuild : isBuild i = true
  · rw [wellTyped_of_decode_of_isBuild h hbuild, selectNamed_eq_false_iff]
    simp [(isBuild_iff_opField h).mp hbuild]
  · rw [wellTyped_of_not_isBuild hbuild]
    simp [mt (isBuild_iff_opField h).mpr hbuild]

/-- Settles O6: a word either has a defect of form or matches a row, and then its select decides. -/
theorem reservedEncodingsFault : Obligations.ReservedEncodingsFault := by
  intro cmd s op illegal reservedSection
  have hdecode : ¬ illegal → ∃ i, decode cmd = .ok i := fun h => by
    obtain ⟨r, hr, hm⟩ := exists_matchesRow_of_not_illegalForm h
    obtain ⟨i, hi, -⟩ := exists_decode_of_matchesRow hr hm
    exact ⟨i, hi⟩
  refine ⟨command_of_illegalForm s, fun hlegal hreserved => ?_, fun hlegal hreserved => ?_⟩
  · obtain ⟨i, hi⟩ := hdecode hlegal
    exact (command_of_not_wellTyped s hi ((wellTyped_eq_false_iff hi).mpr hreserved)).2
  · obtain ⟨i, hi⟩ := hdecode hlegal
    exact ⟨i, hi, eq_true_of_ne_false (mt (wellTyped_eq_false_iff hi).mp hreserved)⟩

/-- Settles O7: each legal sample is the word of its command; the others have an unassigned `OP` and bit 27 set. -/
theorem sampleWordsDecode : Obligations.SampleWordsDecode :=
  ⟨decodeOfEncodeIsTheCommand .crcInit, decodeOfEncodeIsTheCommand (.crcByte 0x31#8),
    decodeOfEncodeIsTheCommand (.build 0x01#8 2#3), decodeOfEncodeIsTheCommand (.buildw 0x30#8 1#3 2#16),
    decode_of_unassigned (.inl rfl), rfl⟩

/-! The words of lines as sums of their fields (30_encoding.md R82). -/

/-- Fields that do not overlap are joined by adding them. -/
theorem toNat_or_eq_add {x y : Word} (n : Nat) (hx : 2 ^ n ∣ x.toNat) (hy : y.toNat < 2 ^ n) :
    (x ||| y).toNat = x.toNat + y.toNat := by
  obtain ⟨k, hk⟩ := hx
  rw [BitVec.toNat_or, hk, Nat.two_pow_add_eq_or_of_lt hy]

theorem encode_crcByte_toNat (b : Byte) : (encode (.crcByte b)).toNat = 0x20000000 + b.toNat := by
  have hb : (b.setWidth 32 : Word).toNat = b.toNat := BitVec.toNat_setWidth_of_le (by decide)
  rw [encode, toNat_or_eq_add 8 (by decide) (by omega), hb]
  rfl

/-- An operand placed at bit `n` of the word. -/
theorem toNat_setWidth_shiftLeft {k : Nat} (n : Nat) (x : BitVec k) (h : k + n ≤ 32) :
    (x.setWidth 32 <<< n : Word).toNat = x.toNat * 2 ^ n := by
  have hlt : x.toNat * 2 ^ n < 2 ^ 32 := calc
    x.toNat * 2 ^ n < 2 ^ k * 2 ^ n := Nat.mul_lt_mul_of_pos_right x.isLt (Nat.two_pow_pos n)
    _ = 2 ^ (k + n) := (Nat.pow_add 2 k n).symm
    _ ≤ 2 ^ 32 := Nat.pow_le_pow_right (by decide) h
  rw [BitVec.toNat_shiftLeft, BitVec.toNat_setWidth_of_le (by omega), Nat.shiftLeft_eq, Nat.mod_eq_of_lt hlt]

/-- The opcode, the select and the address of a build's word, which do not overlap. -/
theorem toNat_header_fields {op : Word} (hop : 2 ^ 27 ∣ op.toNat) (a : Byte) (sec : BitVec 3) :
    (op ||| sec.setWidth 32 <<< 24 ||| a.setWidth 32 <<< 16).toNat =
      op.toNat + sec.toNat * 2 ^ 24 + a.toNat * 2 ^ 16 := by
  have hsec : (sec.setWidth 32 <<< 24 : Word).toNat = sec.toNat * 2 ^ 24 := toNat_setWidth_shiftLeft 24 sec (by decide)
  have haddr : (a.setWidth 32 <<< 16 : Word).toNat = a.toNat * 2 ^ 16 := toNat_setWidth_shiftLeft 16 a (by decide)
  have hopsec : (op ||| sec.setWidth 32 <<< 24).toNat = op.toNat + sec.toNat * 2 ^ 24 := by
    rw [toNat_or_eq_add 27 hop (by omega), hsec]
  rw [toNat_or_eq_add 24 (by omega) (by omega), hopsec, haddr]

theorem encode_build_toNat (a : Byte) (sec : BitVec 3) :
    (encode (.build a sec)).toNat = 0x30000000 + sec.toNat * 2 ^ 24 + a.toNat * 2 ^ 16 :=
  toNat_header_fields (by decide) a sec

theorem encode_buildw_toNat (a : Byte) (sec : BitVec 3) (w : Half) :
    (encode (.buildw a sec w)).toNat = 0x40000000 + sec.toNat * 2 ^ 24 + a.toNat * 2 ^ 16 + w.toNat := by
  have hheader := toNat_header_fields (op := 0x40000000#32) (by decide) a sec
  have hw : (w.setWidth 32 : Word).toNat = w.toNat := BitVec.toNat_setWidth_of_le (by decide)
  rw [encode, toNat_or_eq_add 16 (by rw [hheader, BitVec.toNat_ofNat]; omega) (by omega), hheader, hw]
  rfl

theorem wf_build_iff (a : Nat) (o : SectionOperand) :
    (Source.build a o).wf = true ↔ a ≤ 255 ∧ operandSelect o ≤ 7 := by
  simp [Source.wf, byteInRange, sectionInRange]

theorem wf_buildw_iff (a wc : Nat) (o : SectionOperand) :
    (Source.buildw a o wc).wf = true ↔ a ≤ 255 ∧ operandSelect o ≤ 7 ∧ wc ≤ 65535 := by
  simp [Source.wf, byteInRange, sectionInRange, wcInRange, and_assoc]

theorem wf_crcByte_iff (b : Nat) : (Source.crcByte b).wf = true ↔ b ≤ 255 :=
  decide_eq_true_iff

theorem assemble_of_not_wf {l : Source} (h : ¬ l.wf = true) : assemble l = none :=
  if_neg h

/-- A number below `2 ^ n` is kept by `n` bits. -/
theorem toNat_ofNat_of_le {n k m : Nat} (h : k ≤ m) (hm : m < 2 ^ n) : (BitVec.ofNat n k).toNat = k :=
  (BitVec.toNat_ofNat k n).trans (Nat.mod_eq_of_lt (Nat.lt_of_le_of_lt h hm))

/-- Settles O8: with operands in range the word is the line's encoding, whose value is the sum of its fields. -/
theorem assembledLinesAreTheirCommands : Obligations.AssembledLinesAreTheirCommands := by
  intro a b wc o
  refine ⟨fun h => ?_, fun h => ?_, fun h => ?_, fun h => ?_, fun h => ?_, fun h => ?_, rfl⟩
  · refine ⟨_, assemble_of_wf ((wf_build_iff a o).mpr h), ?_, decodeOfEncodeIsTheCommand _⟩
    rw [buildLine, encode_build_toNat, toNat_ofNat_of_le h.1 (by decide), toNat_ofNat_of_le h.2 (by decide)]
  · exact assemble_of_not_wf (mt (wf_build_iff a o).mp h)
  · refine ⟨_, assemble_of_wf ((wf_buildw_iff a wc o).mpr h), ?_, decodeOfEncodeIsTheCommand _⟩
    obtain ⟨ha, hsec, hwc⟩ := h
    rw [buildwLine, encode_buildw_toNat, toNat_ofNat_of_le ha (by decide), toNat_ofNat_of_le hsec (by decide),
      toNat_ofNat_of_le hwc (by decide)]
  · exact assemble_of_not_wf (mt (wf_buildw_iff a wc o).mp h)
  · refine ⟨_, assemble_of_wf ((wf_crcByte_iff b).mpr h), ?_, decodeOfEncodeIsTheCommand _⟩
    rw [encode_crcByte_toNat, toNat_ofNat_of_le h (by decide)]
  · exact assemble_of_not_wf (mt (wf_crcByte_iff b).mp h)

end Sys2Proof.Machine
end

