-- ==== Sys2Proof/Proofs/CrcLaws.lean ====
section
/-! PROOFS. The laws of the CRC steps (41_crc16.md R131, R132, R139 to R141): the bit step is one-to-one and linear over exclusive or, from
which the byte step's laws and its table form follow. -/

namespace Sys2Proof.Machine

theorem crc16Bit_of_bit_zero_set {c : Half} (h : c.getLsbD 0 = true) : crc16Bit c = (c >>> 1) ^^^ Config.crcPoly :=
  if_pos h

/-- Settles O10: the two branches of the bit step, and its worked examples. -/
theorem bitStepTestsThenShifts : Obligations.BitStepTestsThenShifts :=
  ⟨fun _ => ⟨crc16Bit_of_bit_zero_set, crc16Bit_of_bit_zero_clear⟩, by decide⟩

/-! The steps are bijections (41_crc16.md R132). -/

/-- Bit 15 of the constant is set and the shift clears bit 15, so bit 15 after the step tells which branch was taken. -/
theorem crc16Bit_getLsbD_fifteen (c : Half) : (crc16Bit c).getLsbD 15 = c.getLsbD 0 := by
  cases h : c.getLsbD 0 with
  | true => simp [crc16Bit_of_bit_zero_set h, Config.crcPoly]
  | false => simp [crc16Bit_of_bit_zero_clear h]

theorem crc16Bit_injective : Function.Injective crc16Bit := by
  intro x y h
  have hbit : x.getLsbD 0 = y.getLsbD 0 := by
    rw [← crc16Bit_getLsbD_fifteen, h, crc16Bit_getLsbD_fifteen]
  have hshift : x >>> 1 = y >>> 1 := by
    cases hx : x.getLsbD 0 with
    | true =>
      rw [crc16Bit_of_bit_zero_set hx, crc16Bit_of_bit_zero_set (hbit ▸ hx)] at h
      exact (BitVec.xor_left_inj _).mp h
    | false =>
      rwa [crc16Bit_of_bit_zero_clear hx, crc16Bit_of_bit_zero_clear (hbit ▸ hx)] at h
  refine BitVec.eq_of_getLsbD_eq fun i _ => ?_
  cases i with
  | zero => exact hbit
  | succ i => simpa [Nat.add_comm 1] using congrArg (BitVec.getLsbD · i) hshift

theorem crc16Bits_injective (n : Nat) : Function.Injective (crc16Bits n) := by
  induction n with
  | zero => exact fun _ _ h => h
  | succ n ih => exact ih.comp crc16Bit_injective

/-- For each byte the byte step is one-to-one on finitely many register values. -/
theorem crc16Byte_bijective (b : Byte) : Function.Bijective fun c : Half => crc16Byte c b :=
  Finite.injective_iff_bijective.mp fun _ _ h => (BitVec.xor_left_inj _).mp (crc16Bits_injective 8 h)

/-- Settles O11: eight bit steps by definition, a bijection because each bit step is one-to-one. -/
theorem byteStepIsEightBitStepsAndBijective : Obligations.ByteStepIsEightBitStepsAndBijective :=
  ⟨fun _ _ => rfl, crc16Byte_bijective, by decide⟩

/-! The steps are linear over exclusive or (41_crc16.md R139). -/

@[simp] theorem crc16Bit_zero : crc16Bit 0#16 = 0#16 := rfl

/-- What the bit step combines with the shifted register, given the bit shifted out. -/
def crcFeedback (out : Bool) : Half := if out then Config.crcPoly else 0#16

theorem crcFeedback_xor : ∀ x y : Bool, crcFeedback (x ^^ y) = crcFeedback x ^^^ crcFeedback y := by
  decide

theorem crc16Bit_eq_xor_feedback (c : Half) : crc16Bit c = (c >>> 1) ^^^ crcFeedback (c.getLsbD 0) := by
  cases h : c.getLsbD 0 with
  | true => exact crc16Bit_of_bit_zero_set h
  | false => exact (crc16Bit_of_bit_zero_clear h).trans BitVec.xor_zero.symm

theorem crc16Bit_xor (x y : Half) : crc16Bit (x ^^^ y) = crc16Bit x ^^^ crc16Bit y := by
  simp only [crc16Bit_eq_xor_feedback, BitVec.ushiftRight_xor_distrib, BitVec.getLsbD_xor, crcFeedback_xor]
  ac_rfl

theorem crc16Bits_xor (n : Nat) (x y : Half) : crc16Bits n (x ^^^ y) = crc16Bits n x ^^^ crc16Bits n y := by
  induction n generalizing x y with
  | zero => rfl
  | succ n ih => simp only [crc16Bits_succ, crc16Bit_xor, ih]

/-- With byte 0 nothing is combined with the register. -/
theorem crc16Byte_zero_byte (c : Half) : crc16Byte c 0#8 = crc16Bits 8 c :=
  congrArg (crc16Bits 8) BitVec.xor_zero

/-- Settles O13: linearity of the bit step, eight times, with byte 0 leaving the register as it is. -/
theorem byteStepIsLinear : Obligations.ByteStepIsLinear := by
  refine ⟨fun x y => ?_, fun x y => ?_, fun c b => ?_⟩
  · rw [crc16Bit_zero, BitVec.xor_zero, crc16Bit_xor]
  · rw [crc16Byte_zero_byte, crc16Byte_zero_byte, crc16Byte_zero_byte, crc16Bits_xor]
  · exact (crc16Byte_zero_byte _).symm

/-! The table form (41_crc16.md R140). -/

/-- The low byte of the register is looked up in the table and the rest is shifted out: the register combined with its own low byte
only shifts, and the eight bit steps are linear. -/
theorem crc16Bits_eight_eq_table (d : Half) : crc16Bits 8 d = (d >>> 8) ^^^ crcTable (loByte d) := by
  have htable : crcTable (loByte d) = crc16Bits 8 (zext16 (loByte d)) := congrArg (crc16Bits 8) BitVec.zero_xor
  have hshift : crc16Bits 8 d ^^^ crc16Bits 8 (zext16 (loByte d)) = d >>> 8 :=
    (crc16Bits_xor 8 d _).symm.trans (crc16Byte_loByte d)
  rw [htable, ← hshift, BitVec.xor_assoc, BitVec.xor_self, BitVec.xor_zero]

/-- The byte is combined with bits that leave the register. -/
theorem shiftRight_xor_zext16 (c : Half) (b : Byte) : (c ^^^ zext16 b) >>> 8 = c >>> 8 := by
  have hb : zext16 b >>> 8 = 0#16 := by
    ext i hi
    simp [zext16]
  rw [BitVec.ushiftRight_xor_distrib, hb, BitVec.xor_zero]

/-- Settles O14: the byte enters the low half, which the table looks up; the listed entries by evaluation. -/
theorem tableFormEqualsBitForm : Obligations.TableFormEqualsBitForm := by
  refine ⟨fun c b => ?_, by decide⟩
  rw [crc16Byte, crc16Bits_eight_eq_table, shiftRight_xor_zext16]
  rfl

/-! The residue (41_crc16.md R141). -/

/-- From any register value, a message and the two bytes it leaves in the register take the register to zero. -/
theorem crc16From_append_own_bytes (c : Half) (m : List Byte) :
    crc16From c (m ++ [loByte (crc16From c m), hiByte (crc16From c m)]) = 0x0000#16 := by
  rw [crc16From_append, crc16From_cons, crc16From_cons, crc16From_nil, crc16Byte_loByte, crc16Byte_hiByte]

/-- A frame is a header followed by the two bytes of its checksum. -/
theorem crc16_frameOf (a : Byte) (sa w : Half) : crc16 (frameOf a sa w) = 0x0000#16 :=
  crc16From_append_own_bytes Config.crcInit (header a sa w)

/-- Settles O15: the two byte steps of the residue, for every message and for the header of every frame. -/
theorem messageWithItsChecksumHasResidueZero : Obligations.MessageWithItsChecksumHasResidueZero :=
  ⟨fun c => ⟨crc16Byte_loByte c, crc16Byte_hiByte c⟩, crc16From_append_own_bytes Config.crcInit,
    fun T a σ w => crc16_frameOf a (secAddr T σ) w⟩

end Sys2Proof.Machine
end

