-- ==== Sys2Proof/Proofs/CommandEffects.lean ====
section
/-! PROOFS. What each word does, once for all states: a fault, a new value of `CRC`, or a build; and what it leaves alone (10_state.md R36,
40_frame_builder.md R107 to R110). -/

namespace Sys2Proof.Machine

theorem raiseFault_outside (k : FaultCode) (cmd : Word) (s : State) : SameOutside s (raiseFault k cmd s) :=
  ⟨rfl, rfl, rfl, rfl, rfl, rfl, rfl, rfl, rfl, rfl⟩

/-! The word decides what is done, the state only what it is done to. -/

theorem faultingWord_iff_of_decode {cmd : Word} {i : Instr} (h : decode cmd = .ok i) :
    FaultingWord cmd ↔ i.wellTyped = false := by
  simp [FaultingWord, h]

theorem buildingWord_iff_of_decode {cmd : Word} {i : Instr} (h : decode cmd = .ok i) :
    BuildingWord cmd ↔ isBuild i = true ∧ i.wellTyped = true := by
  simp [BuildingWord, h]

/-- A build of a known section has the same address and section in every state, and a count that the section table gives. -/
theorem exec_of_wellTyped_build {i : Instr} (hbuild : isBuild i = true) (hwell : i.wellTyped = true) :
    ∃ (a : Byte) (σ : Section) (w : SectionTable → Half),
      ∀ s, exec i s = .next (buildWith a (secAddr s.secrom σ) (w s.secrom) s) := by
  cases i with
  | crcInit => cases hbuild
  | crcByte b => cases hbuild
  | build a sec =>
    obtain ⟨σ, hσ⟩ := (sectionOf_some sec).mpr hwell
    exact ⟨a, σ, fun T => secWc T σ, fun s => exec_build_some a sec σ s hσ⟩
  | buildw a sec w =>
    obtain ⟨σ, hσ⟩ := (sectionOf_some sec).mpr hwell
    exact ⟨a, σ, fun _ => w, fun s => exec_buildw_some a sec w σ s hσ⟩

/-- A building word builds in every state. -/
theorem command_eq_buildWith {cmd : Word} (h : BuildingWord cmd) :
    ∃ (a : Byte) (σ : Section) (w : SectionTable → Half),
      ∀ s, command cmd s = .next (buildWith a (secAddr s.secrom σ) (w s.secrom) s) := by
  obtain ⟨i, hi, hbuild, hwell⟩ := h
  obtain ⟨a, σ, w, hexec⟩ := exec_of_wellTyped_build hbuild hwell
  exact ⟨a, σ, w, fun s => (command_ok cmd i s hi).trans (hexec s)⟩

/-- A faulting word takes the fault entry with the same code in every state. -/
theorem command_eq_raiseFault {cmd : Word} (h : FaultingWord cmd) :
    ∃ k, ∀ s, command cmd s = .next (raiseFault k cmd s) := by
  rcases (faultingWord_iff cmd).mp h with ⟨e, herror⟩ | ⟨i, hdecode, hill⟩
  · exact ⟨.illegalCommand, fun s => command_error cmd e s herror⟩
  · exact ⟨.unsupportedSection, fun s => (command_of_not_wellTyped s hdecode hill).2⟩

/-- A word that neither faults nor builds is a stream command: `CRC` gets a value computed from `CRC`. -/
theorem command_eq_setCrc {cmd : Word} (hfault : ¬ FaultingWord cmd) (hbuild : ¬ BuildingWord cmd) :
    ∃ f : Half → Half, ∀ s, command cmd s = .next (succeed (setCrc (f s.crc) s)) := by
  cases hdecode : decode cmd with
  | error e => exact absurd ((faultingWord_iff cmd).mpr (.inl ⟨e, hdecode⟩)) hfault
  | ok i =>
    simp only [command_ok cmd i _ hdecode]
    rw [faultingWord_iff_of_decode hdecode, Bool.not_eq_false] at hfault
    rw [buildingWord_iff_of_decode hdecode, hfault] at hbuild
    cases i with
    | crcInit => exact ⟨fun _ => Config.crcInit, fun s => rfl⟩
    | crcByte b => exact ⟨(crc16Byte · b), fun s => rfl⟩
    | build a sec => exact absurd ⟨rfl, rfl⟩ hbuild
    | buildw a sec w => exact absurd ⟨rfl, rfl⟩ hbuild

/-- All that a word can do. -/
theorem command_cases (cmd : Word) :
    (FaultingWord cmd ∧ ∃ k, ∀ s, command cmd s = .next (raiseFault k cmd s)) ∨
    (¬ FaultingWord cmd ∧ ¬ BuildingWord cmd ∧ ∃ f : Half → Half, ∀ s,
      command cmd s = .next (succeed (setCrc (f s.crc) s))) ∨
    (¬ FaultingWord cmd ∧ BuildingWord cmd ∧ ∃ (a : Byte) (σ : Section) (w : SectionTable → Half), ∀ s,
      command cmd s = .next (buildWith a (secAddr s.secrom σ) (w s.secrom) s)) := by
  by_cases hfault : FaultingWord cmd
  · exact .inl ⟨hfault, command_eq_raiseFault hfault⟩
  · by_cases hbuild : BuildingWord cmd
    · exact .inr (.inr ⟨hfault, hbuild, command_eq_buildWith hbuild⟩)
    · exact .inr (.inl ⟨hfault, hbuild, command_eq_setCrc hfault hbuild⟩)

/-! The frames of the commands (10_state.md R36). -/

/-- Settles O18: a stream command writes `CRC` and `ERR`. -/
theorem streamCommandsFrame : Obligations.StreamCommandsFrame := by
  intro i s t hstream hrun
  have hframe (v : Half) : SameOutside s (succeed (setCrc v s)) := ⟨rfl, rfl, rfl, rfl, rfl, rfl, rfl, rfl, rfl, rfl⟩
  cases i with
  | crcInit =>
    cases hrun
    exact ⟨rfl, rfl, rfl, rfl, rfl, rfl, hframe _, fun _ => rfl⟩
  | crcByte b =>
    cases hrun
    exact ⟨rfl, rfl, rfl, rfl, rfl, rfl, hframe _, fun _ => rfl⟩
  | build a sec => cases hstream
  | buildw a sec w => cases hstream

/-- Settles O21: the eight rows of the multiplexer's table, of which the last two alone read `CRC`. -/
theorem multiplexerSelects : Obligations.MultiplexerSelects := by
  intro s
  refine ⟨rfl, rfl, rfl, rfl, rfl, rfl, rfl, rfl, fun i v hi => ?_⟩
  have hcases : ∀ i : Fin 8, i.val < 6 → i = 0 ∨ i = 1 ∨ i = 2 ∨ i = 3 ∨ i = 4 ∨ i = 5 := by decide
  rcases hcases i hi with rfl | rfl | rfl | rfl | rfl | rfl <;> rfl

/-- Settles O25: a build either is `buildWith`, whose effect is `Built`, or takes the fault entry. -/
theorem buildCommandsFrame : Obligations.BuildCommandsFrame := by
  intro i s t hbuild hrun
  rcases exec_cases i s with ⟨rfl, -⟩ | ⟨b, rfl, -⟩ | ⟨a, σ, w, -, hwell, hexec⟩ | ⟨-, hill, hexec⟩
  · cases hbuild
  · cases hbuild
  · cases hexec.symm.trans hrun
    have hbuilt := buildWith_built a (secAddr s.secrom σ) w s
    exact ⟨hbuilt.rest, fun _ => ⟨hbuilt.eany, hbuilt.ecmd, hbuilt.others⟩,
      fun hill => Bool.noConfusion (hill.symm.trans hwell)⟩
  · cases hexec.symm.trans hrun
    exact ⟨raiseFault_outside _ _ s, fun hwell => Bool.noConfusion (hill.symm.trans hwell),
      fun _ => raiseFault_datapath _ _ s⟩

/-! The frame in the buffer (40_frame_builder.md R107 to R110). -/

/-- The bytes of a buffer that holds a frame, one by one. -/
theorem fbByte_of_frameBytes {s : State} {a : Byte} {sa w : Half} (h : frameBytes s = frameOf a sa w) :
    fbByte s 0 = a ∧ fbByte s 1 = Config.funcRead ∧ fbByte s 2 = hiByte sa ∧ fbByte s 3 = loByte sa ∧
    fbByte s 4 = hiByte w ∧ fbByte s 5 = loByte w ∧ fbByte s 6 = loByte (crc16 (header a sa w)) ∧
    fbByte s 7 = hiByte (crc16 (header a sa w)) := by
  simpa [frameBytes, frameOf_bytes] using h

/-- `frame_o` of a frame. -/
theorem frameBits_of_frameOf {s : State} {a : Byte} {sa w : Half} (h : frameBytes s = frameOf a sa w) :
    frameBits s = a ++ Config.funcRead ++ hiByte sa ++ loByte sa ++ hiByte w ++ loByte w ++
      loByte (crc16 (header a sa w)) ++ hiByte (crc16 (header a sa w)) :=
  frameBits_of_frameBytes (h.trans (frameOf_bytes a sa w))

/-- The four example frames of R107 and R108 over the default table. -/
theorem example_frames {s : State} (h : s.secrom = Config.sections) :
    frameBits (buildWith 0x30#8 (secAddr s.secrom .cellVoltages) 0x0000#16 s) = 0x300313880000C545#64 ∧
    frameBits (buildWith 0x30#8 (secAddr s.secrom .cellVoltages) 0xFFFF#16 s) = 0x30031388FFFFC4F5#64 ∧
    frameBits (buildWith 0x00#8 (secAddr s.secrom .cellVoltages) (secWc s.secrom .cellVoltages) s) = 0x00031388001100B9#64 ∧
    frameBits (buildWith 0xFF#8 (secAddr s.secrom .cellVoltages) (secWc s.secrom .cellVoltages) s) =
      0xFF031388001114B6#64 := by
  simp only [frameBits_of_frameOf (buildWith_bytes _ _ _ _), h]
  decide +kernel

/-- Settles O26: a select of at most 4 always builds, with address and count as given; the examples are evaluated. -/
theorem everyAddressAndCountBuilds : Obligations.EveryAddressAndCountBuilds := by
  refine ⟨fun a sec w s hsec => ?_, fun s hs => ?_⟩
  · obtain ⟨σ, hσ⟩ := (exists_sectionOf_iff sec).mpr hsec
    obtain ⟨haddr, -, -, -, hhi, hlo, -⟩ := fbByte_of_frameBytes (buildWith_bytes a (secAddr s.secrom σ) w s)
    exact ⟨_, exec_buildw_some a sec w σ s hσ, rfl, rfl, rfl, haddr, hhi, hlo⟩
  · exact ⟨_, _, _, _, exec_buildw_some _ _ _ .cellVoltages s rfl, exec_buildw_some _ _ _ .cellVoltages s rfl,
      exec_build_some _ _ .cellVoltages s rfl, exec_build_some _ _ .cellVoltages s rfl, example_frames hs⟩

/-- The operand latches, `FVALID` and the bytes of the buffer: what only a build writes. -/
structure SameFrame (s t : State) : Prop where
  addr : t.addr = s.addr
  saddr : t.saddr = s.saddr
  wcnt : t.wcnt = s.wcnt
  fvalid : t.fvalid = s.fvalid
  bytes : ∀ a, Memory.read t.fb a = Memory.read s.fb a

theorem SameFrame.trans {s t u : State} (h : SameFrame s t) (h' : SameFrame t u) : SameFrame s u :=
  ⟨h'.addr.trans h.addr, h'.saddr.trans h.saddr, h'.wcnt.trans h.wcnt, h'.fvalid.trans h.fvalid,
    fun a => (h'.bytes a).trans (h.bytes a)⟩

theorem SameFrame.frameBytes_eq {s t : State} (h : SameFrame s t) : frameBytes t = frameBytes s := by
  simp only [frameBytes, fbByte, h.bytes]

/-- A word that does not build has a next state, with the frame as it was. -/
theorem command_of_not_buildingWord {cmd : Word} (s : State) (h : ¬ BuildingWord cmd) :
    ∃ t, command cmd s = .next t ∧ SameFrame s t := by
  rcases command_cases cmd with ⟨-, k, hrun⟩ | ⟨-, -, f, hrun⟩ | ⟨-, hbuild, -⟩
  · exact ⟨_, hrun s, rfl, rfl, rfl, rfl, fun _ => rfl⟩
  · exact ⟨_, hrun s, rfl, rfl, rfl, rfl, fun _ => rfl⟩
  · exact absurd hbuild h

/-- Settles O31: such a word faults or writes `CRC` and `ERR`. -/
theorem onlySuccessfulBuildsWriteTheFrame : Obligations.OnlySuccessfulBuildsWriteTheFrame := by
  intro cmd s t hcmd hrun
  obtain ⟨t', hrun', hsame⟩ := command_of_not_buildingWord s hcmd
  cases hrun'.symm.trans hrun
  exact ⟨hsame.addr, hsame.saddr, hsame.wcnt, hsame.fvalid, hsame.bytes⟩

/-- The frame stays as long as no word builds. -/
theorem commands_of_not_buildingWord {l : List Word} (s : State) (h : ∀ x ∈ l, ¬ BuildingWord x) :
    ∃ t, commands l s = .next t ∧ SameFrame s t := by
  induction l generalizing s with
  | nil => exact ⟨s, rfl, rfl, rfl, rfl, rfl, fun _ => rfl⟩
  | cons cmd l ih =>
    obtain ⟨hcmd, hl⟩ := List.forall_mem_cons.mp h
    obtain ⟨t, hrun, hsame⟩ := command_of_not_buildingWord s hcmd
    obtain ⟨u, hrest, hsame'⟩ := ih t hl
    exact ⟨u, (commands_cons_of_next l hrun).trans hrest, hsame.trans hsame'⟩

/-- Settles O27: the build leaves the frame of its latches, and later words keep both. -/
theorem frameHoldsUntilNextBuild : Obligations.FrameHoldsUntilNextBuild := by
  intro cmd later s hcmd hlater
  obtain ⟨a, σ, w, t, hrun, hbuilt⟩ := command_of_buildingWord s hcmd
  obtain ⟨u, hrest, hsame⟩ := commands_of_not_buildingWord t hlater
  have hframe : frameBytes u = frameOf u.addr u.saddr u.wcnt := by
    rw [hsame.frameBytes_eq, hsame.addr, hsame.saddr, hsame.wcnt, hbuilt.addr, hbuilt.saddr, hbuilt.wcnt, hbuilt.bytes]
  obtain ⟨-, hfunc, -, -, -, -, hlow, hhigh⟩ := fbByte_of_frameBytes hframe
  refine ⟨t, u, hrun, hrest, hsame.frameBytes_eq, hframe, ?_, hfunc, ?_⟩
  · rw [hlow, hhigh, hiByte_append_loByte, hframe]
    rfl
  · rw [hframe, crc16_frameOf]

/-- Two buffers with the same eight bytes agree at each index of the frame. -/
theorem fbByte_eq_of_frameBytes_eq {s t : State} (h : frameBytes s = frameBytes t) (i : Fin 8) :
    fbByte s i = fbByte t i :=
  congrFun (List.ofFn_injective (show List.ofFn (fbByte s) = List.ofFn (fbByte t) from h)) i

theorem Memory.read_of_not_listed {m : Memory} {i : Nat} (h : ∀ c ∈ m, c.1 ≠ i) : Memory.read m i = Memory.unlisted := by
  induction m with
  | nil => rfl
  | cons c m ih =>
    obtain ⟨hc, hm⟩ := List.forall_mem_cons.mp h
    rw [Memory.read_cons, if_neg hc, ih hm]

/-- In canonical form no index past the frame is listed. -/
theorem Memory.read_of_wf_of_ge {m : Memory} {i : Nat} (hm : Memory.wf m = true) (hi : Config.frameLen ≤ i) :
    Memory.read m i = Memory.unlisted :=
  Memory.read_of_not_listed fun c hc => Nat.ne_of_lt (Nat.lt_of_lt_of_le (((Memory.wf_iff m).mp hm).2 c hc).1 hi)

/-- In canonical form the bytes of the frame determine the buffer. -/
theorem fb_eq_of_frameBytes_eq {s t : State} (hs : Memory.wf s.fb = true) (ht : Memory.wf t.fb = true)
    (h : frameBytes s = frameBytes t) : s.fb = t.fb := by
  refine Memory.ext_of_wf _ _ hs ht fun i => ?_
  by_cases hi : i < Config.frameLen
  · exact fbByte_eq_of_frameBytes_eq h ⟨i, hi⟩
  · rw [Memory.read_of_wf_of_ge hs (Nat.le_of_not_lt hi), Memory.read_of_wf_of_ge ht (Nat.le_of_not_lt hi)]

/-- Settles O28: over one section table the word gives both builds the same operands, which are all that a build leaves. -/
theorem buildIsHistoryFree : Obligations.BuildIsHistoryFree := by
  intro cmd s s' hcmd htable
  obtain ⟨a, σ, w, hrun⟩ := command_eq_buildWith hcmd
  have hrun' := hrun s'
  rw [← htable] at hrun'
  have hs := buildWith_built a (secAddr s.secrom σ) (w s.secrom) s
  have hs' := buildWith_built a (secAddr s.secrom σ) (w s.secrom) s'
  have hbytes := hs.bytes.trans hs'.bytes.symm
  exact ⟨_, _, hrun s, hrun', hs.addr.trans hs'.addr.symm, hs.saddr.trans hs'.saddr.symm, hs.wcnt.trans hs'.wcnt.symm,
    hs.crc.trans hs'.crc.symm, hbytes, hs.fvalid.trans hs'.fvalid.symm, hs.err.trans hs'.err.symm, hs.eany, hs.ecmd,
    fun hwf hwf' => fb_eq_of_frameBytes_eq (buildWith_wf _ _ _ s hwf) (buildWith_wf _ _ _ s' hwf') hbytes⟩

/-- A list of commands whose first part has a next state goes on from there. -/
theorem commands_append_of_next {l : List Word} {s t : State} (l' : List Word) (h : commands l s = .next t) :
    commands (l ++ l') s = commands l' t := by
  induction l generalizing s with
  | nil =>
    cases h
    rfl
  | cons cmd l ih =>
    obtain ⟨u, hrun, -⟩ := exists_command_next cmd s
    rw [commands_cons_of_next l hrun] at h
    rw [List.cons_append, commands_cons_of_next _ hrun, ih h]

/-- Settles O30: the build leaves its own checksum in `CRC`, from which the stream goes on. -/
theorem buildInsideStreamIsNotDetected : Obligations.BuildInsideStreamIsNotDetected := by
  intro m cmd b s hcmd
  obtain ⟨a, σ, w, t, hrun, hbuilt⟩ := command_of_buildingWord { s with crc := crc16 m, err := 0#2 } hcmd
  have hall := commands_append_of_next [cmd, encode (.crcByte b)] (commands_crcInit_crcBytes m s)
  rw [commands_cons_of_next _ hrun, commands_cons_of_next _ (command_encode_crcByte b t)] at hall
  refine ⟨_, hall, ?_, rfl, hbuilt.eany, hbuilt.ecmd⟩
  show crc16Byte t.crc b = crc16Byte (fbByte t 7 ++ fbByte t 6) b
  rw [hbuilt.fbByte_seven, hbuilt.fbByte_six, hiByte_append_loByte]

end Sys2Proof.Machine
end

