-- ==== Sys2Proof/Proofs/ErrorRegisters.lean ====
section
/-! PROOFS. `ERR`, `EANY` and `ECMD` (60_exceptions.md R160 to R168; 10_state.md R28 to R30): what each word leaves in them, what a run of words
leaves in them, and that they steer nothing. -/

namespace Sys2Proof.Machine

theorem errCode_ne_zero (k : FaultCode) : errCode k ≠ 0#2 := by
  cases k <;> decide

theorem errCode_ne_three (k : FaultCode) : errCode k ≠ 3#2 := by
  cases k <;> decide

/-- Settles O36: a word that does not fault is a stream command or a build, and both end in the success exit. -/
theorem successClearsErrOnly : Obligations.SuccessClearsErrOnly := by
  intro cmd s h
  rcases command_cases cmd with ⟨hfault, -⟩ | ⟨-, -, f, hrun⟩ | ⟨-, -, a, σ, w, hrun⟩
  · exact absurd hfault h
  · exact ⟨_, hrun s, rfl, rfl, rfl⟩
  · exact ⟨_, hrun s, rfl, rfl, rfl⟩

/-- Settles O33: code 1 for no command, code 2 for an ill-typed one, 0 for the success exit. -/
theorem errTellsTheFault : Obligations.ErrTellsTheFault := by
  intro cmd s
  cases hdecode : decode cmd with
  | error e =>
    have hfault : FaultingWord cmd := (faultingWord_iff cmd).mpr (.inl ⟨e, hdecode⟩)
    exact ⟨_, command_error cmd e s hdecode, by simp [errCode, hfault]⟩
  | ok i =>
    cases hwell : i.wellTyped with
    | false =>
      have hfault : FaultingWord cmd := (faultingWord_iff_of_decode hdecode).mpr hwell
      exact ⟨_, (command_of_not_wellTyped s hdecode hwell).2, by simp [hfault, hwell]⟩
    | true =>
      have hsuccess : ¬ FaultingWord cmd := by simp [faultingWord_iff_of_decode hdecode, hwell]
      obtain ⟨t, hrun, herr, -⟩ := successClearsErrOnly cmd s hsuccess
      exact ⟨t, hrun, by simp [herr, hsuccess, hwell]⟩

/-! Priority (60_exceptions.md R164). -/

/-- Every row fixes bit 27 to 0. -/
theorem not_matchesRow_of_bit_set {cmd : Word} (h : cmd.getLsbD 27 = true) : ∀ r ∈ opcodeMap, ¬ matchesRow r cmd := by
  have hrows : ∀ r ∈ opcodeMap, r.mask.getLsbD 27 = true ∧ r.matchBits.getLsbD 27 = false := by decide
  intro r hr hm
  obtain ⟨hmask, hbits⟩ := hrows r hr
  rw [← hm, BitVec.getLsbD_and, h, hmask] at hbits
  cases hbits

theorem step_of_reset {rest : List HostEvent} {s : State} (h : s.port = .reset :: rest) :
    step s = .next (resetBlock { s with port := rest }) := by
  simp [step, hostStep, h]

/-- Settles O34: a word with a defect of form is no command, so its select is never looked at, and a reset comes before all. -/
theorem formBeforeContentAndResetFirst : Obligations.FormBeforeContentAndResetFirst := by
  have hform (cmd : Word) (s : State)
      (h : cmd.getLsbD 27 = true ∨ (cmd.extractLsb' 28 4 = 3#4 ∧ cmd.extractLsb' 0 16 ≠ 0#16)) :
      command cmd s = .next { s with err := 1#2, eany := true, ecmd := cmd } := by
    rcases h with hbit | ⟨hop, hlow⟩
    · exact command_error cmd _ s (decode_of_no_row (not_matchesRow_of_bit_set hbit))
    · exact command_build_illegal cmd s hop (.inr hlow)
  exact ⟨hform, fun s => ⟨hform 0x3D300000#32 s (.inl rfl),
    (command_of_not_wellTyped (i := .build 0x30#8 5#3) s rfl rfl).2⟩, edge_of_rst, fun _ _ => step_of_reset⟩

/-! The error registers steer nothing (60_exceptions.md R168). -/

theorem buildWith_errorRegisters (a : Byte) (sa w : Half) (s : State) (err : BitVec 2) (eany : Bool) (ecmd : Word) :
    buildWith a sa w { s with err := err, eany := eany, ecmd := ecmd } =
      { buildWith a sa w s with eany := eany, ecmd := ecmd } := by
  rw [buildWith_eq a sa w s, buildWith_eq, buildWith_fb, buildWith_fb]

/-- With other contents of the error registers a command differs at most in `EANY` and `ECMD`. -/
theorem command_errorRegisters {cmd : Word} {s t : State} (h : command cmd s = .next t) (err : BitVec 2) (eany : Bool)
    (ecmd : Word) :
    ∃ eany' ecmd', command cmd { s with err := err, eany := eany, ecmd := ecmd } =
      .next { t with eany := eany', ecmd := ecmd' } := by
  rcases command_cases cmd with ⟨-, k, hrun⟩ | ⟨-, -, f, hrun⟩ | ⟨-, -, a, σ, w, hrun⟩
  · cases (hrun s).symm.trans h
    exact ⟨true, cmd, hrun _⟩
  · cases (hrun s).symm.trans h
    exact ⟨eany, ecmd, hrun _⟩
  · cases (hrun s).symm.trans h
    exact ⟨eany, ecmd, (hrun _).trans (congrArg _ (buildWith_errorRegisters a _ _ s err eany ecmd))⟩

/-! What each word, and a run of words, leaves in `EANY` and `ECMD`. -/

theorem command_eany {cmd : Word} {s t : State} (h : command cmd s = .next t) :
    t.eany = true ↔ s.eany = true ∨ FaultingWord cmd := by
  rcases command_cases cmd with ⟨hfault, k, hrun⟩ | ⟨hfault, -, f, hrun⟩ | ⟨hfault, -, a, σ, w, hrun⟩
  · cases (hrun s).symm.trans h
    simp [hfault]
  · cases (hrun s).symm.trans h
    simp [hfault]
  · cases (hrun s).symm.trans h
    simp [hfault]

/-- Settles O37: the other run's result is this one's but for `EANY` and `ECMD`, and no command clears `EANY`. -/
theorem errorRegistersSteerNothing : Obligations.ErrorRegistersSteerNothing := by
  intro cmd s err eany ecmd
  obtain ⟨t, hrun, -⟩ := exists_command_next cmd s
  obtain ⟨eany', ecmd', hrun'⟩ := command_errorRegisters hrun err eany ecmd
  exact ⟨t, _, hrun, hrun', rfl, ⟨rfl, rfl, rfl, rfl, rfl, fun _ => rfl⟩,
    ⟨rfl, rfl, rfl, rfl, rfl, rfl, rfl, rfl, rfl, rfl⟩, fun h => (command_eany hrun).mpr (.inl h)⟩

/-- Settles O38: by induction on the run, each word setting the bit exactly when it faults. -/
theorem stickyBitRecordsAnyFault : Obligations.StickyBitRecordsAnyFault := by
  intro l s
  induction l generalizing s with
  | nil => exact ⟨s, rfl, by simp⟩
  | cons cmd l ih =>
    obtain ⟨t, hrun, -⟩ := exists_command_next cmd s
    obtain ⟨u, hrest, heany⟩ := ih t
    refine ⟨u, (commands_cons_of_next l hrun).trans hrest, ?_⟩
    rw [heany, command_eany hrun, or_assoc]
    simp

/-- Words that do not fault keep `EANY` and `ECMD`. -/
theorem commands_of_not_faultingWord {l : List Word} (s : State) (h : ∀ x ∈ l, ¬ FaultingWord x) :
    ∃ t, commands l s = .next t ∧ t.eany = s.eany ∧ t.ecmd = s.ecmd := by
  induction l generalizing s with
  | nil => exact ⟨s, rfl, rfl, rfl⟩
  | cons cmd l ih =>
    obtain ⟨hcmd, hl⟩ := List.forall_mem_cons.mp h
    obtain ⟨t, hrun, -, heany, hecmd⟩ := successClearsErrOnly cmd s hcmd
    obtain ⟨u, hrest, heany', hecmd'⟩ := ih t hl
    exact ⟨u, (commands_cons_of_next l hrun).trans hrest, heany'.trans heany, hecmd'.trans hecmd⟩

/-- Settles O39: the fault records its word, and the words after it keep the record. -/
theorem ecmdHoldsLatestFaultingWord : Obligations.EcmdHoldsLatestFaultingWord := by
  intro before after cmd s hcmd hafter
  obtain ⟨k, hfault⟩ := command_eq_raiseFault hcmd
  obtain ⟨t, hbefore, -⟩ := stickyBitRecordsAnyFault before s
  obtain ⟨u, hrest, heany, hecmd⟩ := commands_of_not_faultingWord (raiseFault k cmd t) hafter
  refine ⟨u, ?_, hecmd, heany⟩
  rw [commands_append_of_next _ hbefore, commands_cons_of_next _ (hfault t), hrest]

/-- The ports of an idle block. -/
theorem outputs_of_not_busy (anything : Outputs) {s : State} (h : s.busy = false) :
    outputs anything s =
      { cmdReady := 1#1, frameO := frameBits s, fvalidO := BitVec.ofBool s.fvalid, crcO := s.crc, addrO := s.addr,
        saddrO := s.saddr, wcntO := s.wcnt, errO := s.err, eanyO := BitVec.ofBool s.eany, ecmdO := s.ecmd } :=
  if_neg (Bool.eq_false_iff.mp h)

/-- Settles O41: the fault entry leaves the buffer and `FVALID`, which the ports show, and writes a code other than 0. -/
theorem staleFrameStaysAfterFault : Obligations.StaleFrameStaysAfterFault := by
  intro anything cmd s hcmd hbusy
  obtain ⟨k, hfault⟩ := command_eq_raiseFault hcmd
  rw [outputs_of_not_busy anything hbusy]
  refine ⟨_, hfault s, ?_⟩
  rw [outputs_of_not_busy anything (s := raiseFault k cmd s) hbusy]
  exact ⟨rfl, rfl, errCode_ne_zero k⟩

end Sys2Proof.Machine
end

