-- ==== Sys2Proof/Proofs/Steps.lean ====
section
/-! PROOFS. Steps and clock edges (70_reset_and_hazards.md R190 to R193, R203, R204): what each runs, what none of them changes, and the
invariants of the idle state (10_state.md R37). -/

namespace Sys2Proof.Machine

/-! What no micro-step writes. -/

/-- The fields that only a reset or the host's next event changes, and the section table, which nothing changes. -/
structure SameFixed (s t : State) : Prop where
  secrom : t.secrom = s.secrom
  resetSeen : t.resetSeen = s.resetSeen
  port : t.port = s.port

/-- All that M1 can do: it goes on to the first step of the command, or takes a fault. -/
theorem microDecode_cases (s : State) :
    (∃ ph, (ph = .load ∨ ph = .streamInit ∨ ph = .streamXor) ∧ microDecode s = { s with phase := ph }) ∨
    ∃ k, microDecode s = { raiseFault k s.cmdr s with phase := .release } := by
  cases hdecode : decode s.cmdr with
  | error e => exact .inr ⟨.illegalCommand, by simp [microDecode, hdecode]⟩
  | ok i =>
    by_cases hbuild : isBuild i = true
    · rw [microDecode_of_isBuild hdecode hbuild]
      cases i.wellTyped with
      | true => exact .inl ⟨.load, .inl rfl, rfl⟩
      | false => exact .inr ⟨.unsupportedSection, rfl⟩
    · cases i with
      | crcInit => exact .inl ⟨.streamInit, .inr (.inl rfl), by simp [microDecode, hdecode]⟩
      | crcByte b => exact .inl ⟨.streamXor, .inr (.inr rfl), by simp [microDecode, hdecode]⟩
      | build a sec => exact absurd rfl hbuild
      | buildw a sec w => exact absurd rfl hbuild

/-- M2 on a build of a known section: the sequencer stands before header byte 0. -/
theorem microLoad_of_operands {s : State} {a : Byte} {sa w : Half} (hops : microOperands s = some (a, sa, w)) :
    microLoad s = atHeaderByte 0 (setCrc Config.crcInit (loadOperands a sa w s)) := by
  simp [microLoad, hops, atHeaderByte]

/-- All that M2 can do: it loads the operands of a build, or there are none and the block is released. -/
theorem microLoad_cases (s : State) :
    (∃ a sa w, microLoad s = atHeaderByte 0 (setCrc Config.crcInit (loadOperands a sa w s))) ∨
    microLoad s = { s with phase := .release } := by
  cases hops : microOperands s with
  | none => exact .inr (by simp [microLoad, hops])
  | some ops => exact .inl ⟨_, _, _, microLoad_of_operands hops⟩

theorem microStep_fixed (s : State) : SameFixed s (microStep s) := by
  cases h : s.phase <;> simp only [microStep, h]
  case decode => rcases microDecode_cases s with ⟨ph, -, h⟩ | ⟨k, h⟩ <;> rw [h] <;> exact ⟨rfl, rfl, rfl⟩
  case load => rcases microLoad_cases s with ⟨a, sa, w, h⟩ | h <;> rw [h] <;> exact ⟨rfl, rfl, rfl⟩
  all_goals exact ⟨rfl, rfl, rfl⟩

theorem microRun_fixed (n : Nat) (s : State) : SameFixed s (microRun n s) := by
  induction n generalizing s with
  | zero => exact ⟨rfl, rfl, rfl⟩
  | succ n ih =>
    obtain ⟨hsecrom, hseen, hport⟩ := microStep_fixed s
    obtain ⟨hsecrom', hseen', hport'⟩ := ih (microStep s)
    exact ⟨hsecrom'.trans hsecrom, hseen'.trans hseen, hport'.trans hport⟩

/-! One command as one step. -/

/-- Acceptance, execution and completion leave the command's result, retired. -/
theorem commandStep_of_next {cmd : Word} {s t : State} (h : command cmd s = .next t) :
    commandStep cmd s = .next (retire t) := by
  have hheld : command cmd { s with cmdr := cmd } = .next { t with cmdr := cmd, draws := s.draws, port := s.port } :=
    command_outside cmd cmd s.draws s.port s t h
  obtain ⟨t', ht', hsame⟩ := exists_command_next cmd s
  cases ht'.symm.trans h
  rw [commandStep, hheld, ← hsame.draws, ← hsame.port]
  rfl

/-- Settles O51: the micro-steps end in the release of the command's result, which in an idle block is its retirement. -/
theorem microStepsRefineTheCommand : Obligations.MicroStepsRefineTheCommand := by
  intro cmd s hidle
  obtain ⟨t, hrun, hsame⟩ := exists_command_next cmd s
  rw [commandStep_of_next hrun, drain_accept hrun, microRelease_of_idle (hsame.idle hidle)]
  rfl

/-- A ready block accepts the word that the host issues. -/
theorem step_of_command {cmd : Word} {rest : List HostEvent} {s : State} (hseen : s.resetSeen = true)
    (hbusy : s.busy = false) (hport : s.port = .command cmd :: rest) :
    step s = commandStep cmd { s with port := rest } := by
  simp [step, hostStep, hseen, hbusy, hport]

/-- Settles O45: the decoded command runs with its word in `CMDR`, and its result is retired. -/
theorem stepRunsTheDecodedCommand : Obligations.StepRunsTheDecodedCommand := by
  intro cmd rest i s t hseen hbusy hport hdecode hrun
  rw [step_of_command hseen hbusy hport, commandStep, command_ok cmd i _ hdecode, hrun]
  rfl

/-- Settles O46: the fault entry, retired. -/
theorem stepTakesIllegalCommand : Obligations.StepTakesIllegalCommand := by
  intro cmd rest e s hseen hbusy hport hdecode
  rw [step_of_command hseen hbusy hport, commandStep_of_next (command_error cmd e _ hdecode)]
  rfl

theorem run_core_of_step (k : Nat) {s t : State} (h : step s = .next t) :
    Host.Core.run core (k + 1) s = Host.Core.run core k t :=
  run_of_step core k s t h

/-- As many steps as there are commands on the list carry them out in order, whatever `CMDR` and the count of draws hold. -/
theorem run_of_commands (l : List Word) {s : State} (hseen : s.resetSeen = true) (hbusy : s.busy = false) (c : Word)
    (d : Nat) : ∃ u v, Host.Core.run core l.length { s with cmdr := c, draws := d, port := l.map .command } = .next u ∧
      commands l s = .next v ∧ u = { v with port := [], cmdr := u.cmdr, draws := u.draws } := by
  induction l generalizing s c d with
  | nil => exact ⟨_, s, rfl, rfl, rfl⟩
  | cons cmd l ih =>
    obtain ⟨t, hrun, hsame⟩ := exists_command_next cmd s
    have hstep := step_of_command (cmd := cmd) (rest := l.map .command)
      (s := { s with cmdr := c, draws := d, port := (cmd :: l).map .command }) hseen hbusy rfl
    rw [commandStep_of_next (command_outside cmd c d (l.map .command) s t hrun)] at hstep
    obtain ⟨u, v, hsteps, hrest, hu⟩ :=
      ih (hsame.resetSeen.trans hseen) (hsame.busy.trans hbusy) (Config.deadLatch d) (d + 1)
    exact ⟨u, v, (run_core_of_step l.length hstep).trans hsteps, (commands_cons_of_next l hrun).trans hrest, hu⟩

/-- Settles O47: the induction over the list, from the state's own `CMDR` and count of draws. -/
theorem stepsApplyCommandsInOrder : Obligations.StepsApplyCommandsInOrder := by
  intro l s hseen hbusy hport
  have h := run_of_commands l hseen hbusy s.cmdr s.draws
  rwa [← hport] at h

/-! The invariants of the idle state (10_state.md R37). -/

/-- The fields that are no part of the invariants. -/
theorem idleInv_outside {s : State} (h : IdleInv s) (c : Word) (d : Nat) (p : List HostEvent) :
    IdleInv { s with cmdr := c, draws := d, port := p } :=
  ⟨h.idle, h.canonical, h.frame, h.section_known, h.nothing_built, h.err_legal, h.err_sticky, h.no_fault⟩

theorem idleInv_resetBlock (s : State) : IdleInv (resetBlock s) where
  idle := ⟨rfl, rfl, rfl, rfl, rfl⟩
  canonical := rfl
  frame := fun h => Bool.noConfusion h
  section_known := fun h => Bool.noConfusion h
  nothing_built := fun _ => ⟨rfl, rfl, rfl, resetBlock_fbByte s⟩
  err_legal := by simp
  err_sticky := fun h => absurd rfl h
  no_fault := fun _ => ⟨rfl, rfl⟩

/-- Settles O48: the reset state is what a reset edge leaves of it. -/
theorem resetStateMeetsInvariant : Obligations.ResetStateMeetsInvariant := idleInv_resetBlock State.reset

/-- A fault keeps the datapath and records itself in all three error registers. -/
theorem idleInv_raiseFault {s : State} (h : IdleInv s) (k : FaultCode) (cmd : Word) : IdleInv (raiseFault k cmd s) where
  idle := h.idle
  canonical := h.canonical
  frame := h.frame
  section_known := h.section_known
  nothing_built := h.nothing_built
  err_legal := errCode_ne_three k
  err_sticky := fun _ => rfl
  no_fault := fun hany => Bool.noConfusion hany

/-- `CRC` is no part of the invariants, and the success exit clears `ERR`. -/
theorem idleInv_setCrc {s : State} (h : IdleInv s) (v : Half) : IdleInv (succeed (setCrc v s)) where
  idle := h.idle
  canonical := h.canonical
  frame := h.frame
  section_known := h.section_known
  nothing_built := h.nothing_built
  err_legal := by simp
  err_sticky := fun herr => absurd rfl herr
  no_fault := fun hany => ⟨(h.no_fault hany).1, rfl⟩

/-- A build writes a frame that agrees with the latches it writes. -/
theorem idleInv_buildWith {s : State} (h : IdleInv s) (a : Byte) (σ : Section) (w : Half) :
    IdleInv (buildWith a (secAddr s.secrom σ) w s) where
  idle := (buildWith_built a _ w s).rest.idle h.idle
  canonical := buildWith_wf a _ w s h.canonical
  frame := fun _ => buildWith_bytes a _ w s
  section_known := fun _ => ⟨σ, rfl⟩
  nothing_built := fun hvalid => Bool.noConfusion hvalid
  err_legal := by simp
  err_sticky := fun herr => absurd rfl herr
  no_fault := fun hany => ⟨(h.no_fault hany).1, rfl⟩

/-- Every word keeps the invariants. -/
theorem idleInv_command {cmd : Word} {s t : State} (h : IdleInv s) (hrun : command cmd s = .next t) : IdleInv t := by
  rcases command_cases cmd with ⟨-, k, hcmd⟩ | ⟨-, -, f, hcmd⟩ | ⟨-, -, a, σ, w, hcmd⟩
  · cases (hcmd s).symm.trans hrun
    exact idleInv_raiseFault h k cmd
  · cases (hcmd s).symm.trans hrun
    exact idleInv_setCrc h (f s.crc)
  · cases (hcmd s).symm.trans hrun
    exact idleInv_buildWith h a σ (w s.secrom)

/-- Settles O49: a step of an idle block is a reset, nothing, or a command followed by its retirement. -/
theorem everyStepKeepsInvariant : Obligations.EveryStepKeepsInvariant := by
  intro s t h hstep
  rcases step_cases s with ⟨rest, -, e⟩ | ⟨-, e⟩ | ⟨-, hbusy, -⟩ | ⟨-, -, -, e⟩ | ⟨cmd, rest, -, -, -, e⟩
  · cases e.symm.trans hstep
    exact idleInv_resetBlock _
  · cases e.symm.trans hstep
  · exact Bool.noConfusion (h.idle.1.symm.trans hbusy)
  · cases e.symm.trans hstep
    exact h
  · obtain ⟨u, hrun, -⟩ := exists_command_next cmd { s with port := rest }
    rw [commandStep_of_next hrun] at e
    cases e.symm.trans hstep
    exact idleInv_outside (idleInv_command (idleInv_outside h s.cmdr s.draws rest) hrun) _ _ u.port

/-! What every step and every edge does. -/

/-- All that an edge can do. -/
theorem edge_cases (p : PortIn) (s : State) :
    (p.rst = true ∧ edge p s = .next (resetBlock s)) ∨
    (p.rst = false ∧ s.resetSeen = false ∧ edge p s = .refused .beforeFirstReset) ∨
    (p.rst = false ∧ s.resetSeen = true ∧ s.busy = true ∧ edge p s = .next (busyEdge s)) ∨
    (p.rst = false ∧ s.resetSeen = true ∧ s.busy = false ∧ p.cmdValid = true ∧ edge p s = .next (acceptEdge p.cmd s)) ∨
    (p.rst = false ∧ s.resetSeen = true ∧ s.busy = false ∧ p.cmdValid = false ∧ edge p s = .next s) := by
  unfold edge
  cases p.rst <;> cases s.resetSeen <;> cases s.busy <;> cases p.cmdValid <;> simp

/-- Settles O44: of the cases of a step and of an edge, the refusal alone is left. -/
theorem noRunBeforeFirstReset : Obligations.NoRunBeforeFirstReset := by
  refine ⟨fun s hseen hport => ?_, fun p s hseen hrst => ?_⟩
  · rcases step_cases s with ⟨rest, h, -⟩ | ⟨-, e⟩ | ⟨h, -⟩ | ⟨h, -⟩ | ⟨-, -, h, -⟩
    · exact absurd h (hport rest)
    · exact e
    all_goals exact Bool.noConfusion (hseen.symm.trans h)
  · simp [edge, hseen, hrst]

/-- The edges at which a command executes leave the fixed fields alone. -/
theorem busyEdge_fixed (s : State) : SameFixed s (busyEdge s) := by
  unfold busyEdge
  split
  · exact microRun_fixed microBound s
  · exact ⟨rfl, rfl, rfl⟩

/-- After the first reset a step has a next state. -/
theorem exists_step_next {s : State} (hseen : s.resetSeen = true) : ∃ t, step s = .next t := by
  rcases step_cases s with ⟨rest, -, e⟩ | ⟨h, -⟩ | ⟨-, -, e⟩ | ⟨-, -, -, e⟩ | ⟨cmd, rest, -, -, -, e⟩
  · exact ⟨_, e⟩
  · exact Bool.noConfusion (h.symm.trans hseen)
  · exact ⟨_, e⟩
  · exact ⟨_, e⟩
  · obtain ⟨u, hrun, -⟩ := exists_command_next cmd { s with port := rest }
    exact ⟨_, e.trans (commandStep_of_next hrun)⟩

/-- After the first reset an edge has a next state. -/
theorem exists_edge_next (p : PortIn) {s : State} (hseen : s.resetSeen = true) : ∃ t, edge p s = .next t := by
  rcases edge_cases p s with ⟨-, e⟩ | ⟨-, h, -⟩ | ⟨-, -, -, e⟩ | ⟨-, -, -, -, e⟩ | ⟨-, -, -, -, e⟩
  · exact ⟨_, e⟩
  · exact Bool.noConfusion (h.symm.trans hseen)
  all_goals exact ⟨_, e⟩

/-- A step keeps the section table, and that a reset was seen. -/
theorem step_keeps {s t : State} (h : step s = .next t) :
    t.secrom = s.secrom ∧ (s.resetSeen = true → t.resetSeen = true) := by
  rcases step_cases s with ⟨rest, -, e⟩ | ⟨-, e⟩ | ⟨-, -, e⟩ | ⟨-, -, -, e⟩ | ⟨cmd, rest, -, -, -, e⟩
  · cases e.symm.trans h
    exact ⟨rfl, fun _ => rfl⟩
  · cases e.symm.trans h
  · cases e.symm.trans h
    have hfixed := microRun_fixed microBound s
    exact ⟨hfixed.secrom, hfixed.resetSeen.trans⟩
  · cases e.symm.trans h
    exact ⟨rfl, id⟩
  · obtain ⟨u, hrun, hsame⟩ := exists_command_next cmd { s with port := rest }
    rw [commandStep_of_next hrun] at e
    cases e.symm.trans h
    exact ⟨hsame.secrom, hsame.resetSeen.trans⟩

/-- An edge keeps the section table, and that a reset was seen. -/
theorem edge_keeps {p : PortIn} {s t : State} (h : edge p s = .next t) :
    t.secrom = s.secrom ∧ (s.resetSeen = true → t.resetSeen = true) := by
  rcases edge_cases p s with ⟨-, e⟩ | ⟨-, -, e⟩ | ⟨-, -, -, e⟩ | ⟨-, -, -, -, e⟩ | ⟨-, -, -, -, e⟩
  · cases e.symm.trans h
    exact ⟨rfl, fun _ => rfl⟩
  · cases e.symm.trans h
  · cases e.symm.trans h
    exact ⟨(busyEdge_fixed s).secrom, (busyEdge_fixed s).resetSeen.trans⟩
  · cases e.symm.trans h
    exact ⟨rfl, id⟩
  · cases e.symm.trans h
    exact ⟨rfl, id⟩

/-- Settles O50: no case of a step or of an edge writes the table. -/
theorem nothingWritesTheSectionTable : Obligations.NothingWritesTheSectionTable :=
  ⟨fun _ _ h => (step_keeps h).1, fun _ _ _ h => (edge_keeps h).1⟩

/-- Settles O40: every word has a next state, and a refusal needs that no reset was seen, which no step undoes. -/
theorem nothingStopsTheBlock : Obligations.NothingStopsTheBlock := by
  refine ⟨fun l s => ?_, fun s hseen => ?_, fun p s hseen => ?_⟩
  · obtain ⟨t, hrun, -⟩ := stickyBitRecordsAnyFault l s
    exact ⟨t, hrun⟩
  · obtain ⟨t, h⟩ := exists_step_next hseen
    exact ⟨t, h, (step_keeps h).2 hseen⟩
  · obtain ⟨t, h⟩ := exists_edge_next p hseen
    exact ⟨t, h, (edge_keeps h).2 hseen⟩

/-- Nothing of an executing command is left by a reset but the count of draws: micro-steps write neither the table nor the host's list. -/
theorem resetBlock_microRun_accept (n : Nat) (cmd : Word) (s : State) :
    resetBlock (microRun n (accept cmd s)) = { resetBlock s with draws := (microRun n (accept cmd s)).draws } := by
  have hfixed := microRun_fixed n (accept cmd s)
  rw [resetBlock, hfixed.secrom, hfixed.port]
  rfl

/-- Settles O43: a reset edge leads to the same state whatever was in execution, and a block in that state accepts. -/
theorem resetAbandonsTheCommand : Obligations.ResetAbandonsTheCommand := by
  intro p q cmd n s hp hq
  refine ⟨resetBlock s, _, edge_of_rst p s hp, rfl, edge_of_rst p _ hp, resetBlock_microRun_accept n cmd s,
    edge_of_rst q (resetBlock s) hq, (idleInv_resetBlock s).idle, fun r hr hvalid => ?_⟩
  exact ⟨_, edge_of_accepting hr rfl rfl hvalid, rfl, rfl⟩

end Sys2Proof.Machine
end

