-- ==== Sys2Proof/Proofs/MicroCounters.lean ====
section
/-! PROOFS. The micro-step level in its own terms (40_frame_builder.md R112, 41_crc16.md R133): how a byte is absorbed, which steps a command
takes, and where the hidden counters stand (10_state.md R26, R33). -/

namespace Sys2Proof.Machine

/-! A byte is absorbed in nine micro-steps (41_crc16.md R133). -/

theorem microRun_one_of_streamXor {s : State} (h : s.phase = .streamXor) : microRun 1 s = microStreamXor s := by
  simp [microRun, microStep, h]

theorem microRun_one_of_select {s : State} (h : s.phase = .select) : microRun 1 s = microSelect s := by
  simp [microRun, microStep, h]

/-- In a stream the byte is the one in the word held. -/
theorem microRun_nine_of_streamXor {s : State} (h : s.phase = .streamXor) :
    microRun 9 s = { s with crc := crc16Byte s.crc (byteField s.cmdr), bitn := 8#4, phase := .streamDone } := by
  rw [show 9 = 1 + 8 from rfl, microRun_add, microRun_one_of_streamXor h, microRun_streamBits _ rfl rfl]
  rfl

/-- In a build the byte is the selected one, which also goes into the buffer. -/
theorem microRun_nine_of_select {s : State} (h : s.phase = .select) :
    microRun 9 s = { emitHeaderByte s (muxIndex s) with bitn := 8#4, phase := .next } := by
  rw [show 9 = 1 + 8 from rfl, microRun_add, microRun_one_of_select h, microRun_bits _ rfl rfl]
  rfl

/-- Settles O19: the exclusive or, eight bit steps, and the step after them. -/
theorem nineMicroStepsAbsorbAByte : Obligations.NineMicroStepsAbsorbAByte := by
  refine fun s => ⟨fun h => ?_, fun h => ?_⟩
  · have hten : microRun 10 s = microStep (microRun 9 s) := microRun_add 9 1 s
    rw [hten, microRun_nine_of_streamXor h, microRun_one_of_streamXor h]
    exact ⟨rfl, rfl, rfl, rfl, rfl⟩
  · rw [microRun_turn s h, microRun_nine_of_select h, microRun_one_of_select h]
    exact ⟨rfl, rfl, rfl, rfl, rfl⟩

/-! Which micro-steps a command takes (40_frame_builder.md R112, 70_reset_and_hazards.md R201). -/

theorem microPhases_add (m n : Nat) (s : State) :
    microPhases (m + n) s = microPhases m s ++ microPhases n (microRun m s) := by
  induction m generalizing s with
  | zero => rw [Nat.zero_add]; rfl
  | succ m ih => rw [Nat.succ_add]; exact congrArg (s.phase :: ·) (ih (microStep s))

/-- M3, M4 eight times, M5. -/
def turnPhases : List Phase := Phase.select :: List.replicate 8 Phase.bitStep ++ [Phase.next]

/-- M1, M2, six turns of the loop of `SEQ`, M6 to M9. -/
def buildPhases : List Phase :=
  Phase.decode :: Phase.load :: (List.replicate 6 turnPhases).flatten ++
    [Phase.crcLow, Phase.crcHigh, Phase.done, Phase.release]

/-- M1, the exclusive or, eight bit steps, the success exit, M9. -/
def crcBytePhases : List Phase :=
  Phase.decode :: Phase.streamXor :: List.replicate 8 Phase.streamBit ++ [Phase.streamDone, Phase.release]

theorem microPhases_of_bitStep {s : State} (h : s.phase = .bitStep) (hb : s.bitn = 0#4) :
    microPhases 8 s = List.replicate 8 .bitStep := by
  simp [microPhases, microStep, microBit, h, hb]

theorem microPhases_of_streamBit {s : State} (h : s.phase = .streamBit) (hb : s.bitn = 0#4) :
    microPhases 8 s = List.replicate 8 .streamBit := by
  simp [microPhases, microStep, microBit, h, hb]

theorem microPhases_turn {s : State} (h : s.phase = .select) : microPhases 10 s = turnPhases := by
  rw [show 10 = 1 + 8 + 1 from rfl, microPhases_add, microPhases_add, microRun_nine_of_select h,
    microRun_one_of_select h, microPhases_of_bitStep rfl rfl]
  simp [microPhases, h, turnPhases]

/-- The turns that are left of the loop. -/
theorem microPhases_turns (k : Nat) {n : Nat} (h : n + k = 6) (s : State) :
    microPhases (10 * k) (atHeaderByte n s) = (List.replicate k turnPhases).flatten := by
  induction k generalizing n s with
  | zero => rfl
  | succ k ih =>
    have hphase : (atHeaderByte n s).phase = .select := if_pos (by omega)
    rw [Nat.mul_succ, Nat.add_comm, microPhases_add, microPhases_turn hphase,
      microRun_turn_atHeaderByte (by omega), ih (by omega)]
    rfl

/-- M2 to M9. -/
theorem microPhases_load {s : State} {a : Byte} {sa w : Half} (hphase : s.phase = .load)
    (hops : microOperands s = some (a, sa, w)) : .decode :: microPhases 65 s = buildPhases := by
  have hload : microRun 1 s = atHeaderByte 0 (setCrc Config.crcInit (loadOperands a sa w s)) := by
    simpa [microRun, microStep, hphase] using microLoad_of_operands hops
  rw [show 65 = 1 + 10 * 6 + 4 from rfl, microPhases_add, microPhases_add, microRun_add, hload, microPhases_turns 6 rfl,
    microRun_turns 6 rfl]
  simp only [microPhases, hphase]
  rfl

/-- The steps of an accepted build are the same for every build, and after them the block is idle. -/
theorem microPhases_accept_of_buildingWord {cmd : Word} (s : State) (h : BuildingWord cmd) :
    microPhases 66 (accept cmd s) = buildPhases ∧ (microRun 66 (accept cmd s)).phase = .idle := by
  obtain ⟨i, hi, hbuild, hwell⟩ := h
  obtain ⟨a, sa, w, hops, -⟩ := exists_microOperands s hi hbuild hwell
  have hdecode : microRun 1 (accept cmd s) = { accept cmd s with phase := .load } :=
    (microDecode_of_isBuild (s := accept cmd s) hi hbuild).trans (if_pos hwell)
  rw [show 66 = 1 + 65 from rfl, microPhases_add, microRun_add, hdecode,
    microRun_load (s := { accept cmd s with phase := .load }) rfl hops]
  exact ⟨microPhases_load rfl hops, rfl⟩

/-- A `CRC.BYTE` from its exclusive or to M9. -/
theorem microPhases_of_streamXor {s : State} (h : s.phase = .streamXor) :
    .decode :: microPhases 11 s = crcBytePhases ∧ (microRun 11 s).phase = .idle := by
  have hrun : microRun 11 s = microRun 2 (microRun 9 s) := microRun_add 9 2 s
  rw [hrun, show 11 = 1 + 8 + 2 from rfl, microPhases_add, microPhases_add, microRun_nine_of_streamXor h,
    microRun_one_of_streamXor h, microPhases_of_streamBit rfl rfl]
  simp only [microPhases, h]
  exact ⟨rfl, rfl⟩

theorem microPhases_accept_of_crcByte {cmd : Word} {b : Byte} (s : State) (h : decode cmd = .ok (.crcByte b)) :
    microPhases 12 (accept cmd s) = crcBytePhases ∧ (microRun 12 (accept cmd s)).phase = .idle := by
  have hdecode : microRun 1 (accept cmd s) = { accept cmd s with phase := .streamXor } := by
    simp [microRun, microStep, microDecode, h]
  rw [show 12 = 1 + 11 from rfl, microPhases_add, microRun_add, hdecode]
  exact microPhases_of_streamXor rfl

/-- Settles O52: the lists of steps are counted. -/
theorem microStepCounts : Obligations.MicroStepCounts := by
  refine fun cmd s _ => ⟨fun hcmd => ?_, fun b hcmd => ?_⟩
  · obtain ⟨hphases, hidle⟩ := microPhases_accept_of_buildingWord s hcmd
    rw [hphases]
    exact ⟨by decide, by decide, by decide, by decide, by decide, hidle⟩
  · obtain ⟨hphases, hidle⟩ := microPhases_accept_of_crcByte s hcmd
    rw [hphases]
    exact ⟨by decide, by decide, by decide, hidle⟩

/-! Where the hidden counters stand (10_state.md R26, R33). -/

/-- The values of `IDX` and `BITN` with which each micro-step is reached. -/
def CountersAt (ph : Phase) (idx bitn : BitVec 4) : Prop :=
  idx.toNat ≤ 8 ∧ bitn.toNat ≤ 8 ∧
    match ph with
    | .idle | .decode => idx = 0#4 ∧ bitn = 0#4
    | .select | .next => idx.toNat ≤ 5
    | .bitStep => idx.toNat ≤ 5 ∧ bitn.toNat ≤ 7
    | .streamBit => bitn.toNat ≤ 7
    | .crcLow => idx = 6#4
    | .crcHigh => idx = 7#4
    | .done => idx = 8#4
    | .load | .streamInit | .streamXor | .streamDone | .release => True

theorem microInv_iff (s : State) :
    MicroInv s ↔ (s.busy = true ↔ s.phase ≠ .idle) ∧ CountersAt s.phase s.idx s.bitn := by
  constructor
  · rintro ⟨hbusy, hidx, hbitn, hrest, hheader, hbits, hlow, hhigh, hdone⟩
    refine ⟨hbusy, hidx, hbitn, ?_⟩
    cases h : s.phase <;> simp_all
  · rintro ⟨hbusy, hidx, hbitn, hphase⟩
    refine ⟨hbusy, hidx, hbitn, ?_, ?_, ?_, ?_, ?_, ?_⟩
    all_goals cases h : s.phase <;> simp_all

/-- A counter that is below its end does not wrap. -/
theorem toNat_add_one {n : BitVec 4} (h : n.toNat ≤ 8) : (n + 1#4).toNat = n.toNat + 1 := by
  rw [BitVec.toNat_add, BitVec.toNat_ofNat]
  omega

/-- M4 advances `BITN`, and leaves its phase when `BITN` reaches 8. -/
theorem countersAt_bitStep {idx bitn : BitVec 4} (h : CountersAt .bitStep idx bitn) :
    CountersAt (if (bitn + 1#4).toNat < 8 then .bitStep else .next) idx (bitn + 1#4) := by
  obtain ⟨hidx, hbitn, hlow, hend⟩ := h
  have hnext := toNat_add_one hbitn
  split
  · exact ⟨hidx, by omega, hlow, by omega⟩
  · exact ⟨hidx, by omega, hlow⟩

/-- So does a bit step of `CRC.BYTE`. -/
theorem countersAt_streamBit {idx bitn : BitVec 4} (h : CountersAt .streamBit idx bitn) :
    CountersAt (if (bitn + 1#4).toNat < 8 then .streamBit else .streamDone) idx (bitn + 1#4) := by
  obtain ⟨hidx, hbitn, hend⟩ := h
  have hnext := toNat_add_one hbitn
  split
  · exact ⟨hidx, by omega, by omega⟩
  · exact ⟨hidx, by omega, trivial⟩

/-- M5 advances `IDX`, and leaves the loop when `IDX` reaches 6. -/
theorem countersAt_next {idx bitn : BitVec 4} (h : CountersAt .next idx bitn) :
    CountersAt (if (idx + 1#4).toNat < 6 then .select else .crcLow) (idx + 1#4) 0#4 := by
  obtain ⟨hidx, -, hlow : idx.toNat ≤ 5⟩ := h
  have hnext := toNat_add_one hidx
  split
  · exact ⟨by omega, by decide, show (idx + 1#4).toNat ≤ 5 by omega⟩
  · exact ⟨by omega, by decide, BitVec.eq_of_toNat_eq (show (idx + 1#4).toNat = 6 by omega)⟩

theorem ite_ne_idle {c : Prop} [Decidable c] {p q : Phase} (hp : p ≠ .idle) (hq : q ≠ .idle) :
    (if c then p else q) ≠ .idle := by
  split
  · exact hp
  · exact hq

/-- A micro-step other than M9 that goes on to another micro-step keeps the block busy. -/
theorem microInv_of_busy {s : State} (hbusy : s.busy = true) (hphase : s.phase ≠ .idle)
    (hcounters : CountersAt s.phase s.idx s.bitn) : MicroInv s :=
  (microInv_iff s).mpr ⟨iff_of_true hbusy hphase, hcounters⟩

/-- Every micro-step goes to a phase with the counters as they must stand there. -/
theorem microInv_microStep {s : State} (h : MicroInv s) : MicroInv (microStep s) := by
  by_cases hidle : s.phase = .idle
  · simpa [microStep, hidle] using h
  have hbusy : s.busy = true := h.busy.mpr hidle
  obtain ⟨-, hcounters⟩ := (microInv_iff s).mp h
  have hidx := h.idx_range
  have hbitn := h.bitn_range
  cases hphase : s.phase <;> rw [hphase] at hcounters <;> simp only [microStep, hphase]
  case idle => exact absurd hphase hidle
  case decode =>
    rcases microDecode_cases s with ⟨ph, rfl | rfl | rfl, hdecode⟩ | ⟨k, hdecode⟩ <;> rw [hdecode]
    all_goals exact microInv_of_busy hbusy nofun ⟨hidx, hbitn, trivial⟩
  case load =>
    rcases microLoad_cases s with ⟨a, sa, w, hload⟩ | hload <;> rw [hload]
    · exact microInv_of_busy hbusy nofun ⟨Nat.zero_le 8, Nat.zero_le 8, Nat.zero_le 5⟩
    · exact microInv_of_busy hbusy nofun ⟨hidx, hbitn, trivial⟩
  case select =>
    obtain ⟨-, -, hlow⟩ := hcounters
    exact microInv_of_busy hbusy nofun ⟨hidx, Nat.zero_le 8, hlow, Nat.zero_le 7⟩
  case bitStep => exact microInv_of_busy hbusy (ite_ne_idle nofun nofun) (countersAt_bitStep hcounters)
  case next => exact microInv_of_busy hbusy (ite_ne_idle nofun nofun) (countersAt_next hcounters)
  case crcLow => exact microInv_of_busy hbusy nofun ⟨Nat.le_succ 7, hbitn, rfl⟩
  case crcHigh => exact microInv_of_busy hbusy nofun ⟨Nat.le_refl 8, hbitn, rfl⟩
  case done => exact microInv_of_busy hbusy nofun ⟨hidx, hbitn, trivial⟩
  case streamInit => exact microInv_of_busy hbusy nofun ⟨hidx, hbitn, trivial⟩
  case streamXor => exact microInv_of_busy hbusy nofun ⟨hidx, Nat.zero_le 8, Nat.zero_le 7⟩
  case streamBit => exact microInv_of_busy hbusy (ite_ne_idle nofun nofun) (countersAt_streamBit hcounters)
  case streamDone => exact microInv_of_busy hbusy nofun ⟨hidx, Nat.zero_le 8, trivial⟩
  case release =>
    exact (microInv_iff _).mpr ⟨iff_of_false nofun (absurd rfl), Nat.zero_le 8, Nat.zero_le 8, rfl, rfl⟩

/-- Settles O53: an idle block and one that has just accepted have both counters 0, and each micro-step keeps the ranges. -/
theorem everyMicroStepKeepsCounterRanges : Obligations.EveryMicroStepKeepsCounterRanges := by
  refine ⟨fun cmd s hidle => ?_, fun s => microInv_microStep⟩
  obtain ⟨hbusy, hphase, hidx, hbitn, -⟩ := hidle
  simp [microInv_iff, CountersAt, hbusy, hphase, hidx, hbitn]

end Sys2Proof.Machine
end

