-- ==== Sys2Proof/Proofs/PortsAndInstances.lean ====
section
/-! PROOFS. The ports (10_state.md R34, R35; 20_memory.md R53), the handshake (70_reset_and_hazards.md R203), and several instances
(20_memory.md R62). -/

namespace Sys2Proof.Machine

/-! The handshake. -/

theorem outputs_of_busy (anything : Outputs) {s : State} (h : s.busy = true) :
    outputs anything s = { anything with cmdReady := 0#1 } :=
  if_pos h

theorem outputs_cmdReady_iff (anything : Outputs) (s : State) :
    (outputs anything s).cmdReady = 1#1 ↔ s.busy = false := by
  cases h : s.busy with
  | true => simp [outputs_of_busy anything h]
  | false => simp [outputs_of_not_busy anything h]

/-- An idle edge that offers nothing changes nothing. -/
theorem edge_of_no_offer {p : PortIn} {s : State} (hrst : p.rst = false) (hseen : s.resetSeen = true)
    (hbusy : s.busy = false) (hvalid : p.cmdValid = false) : edge p s = .next s := by
  simp [edge, hrst, hseen, hbusy, hvalid]

/-- An edge that accepts no word depends on no word. -/
theorem edge_cmd_irrelevant {p : PortIn} {s : State} (hseen : s.resetSeen = true)
    (h : ¬ (p.rst = false ∧ p.cmdValid = true ∧ s.busy = false)) (cmd : Word) :
    edge { p with cmd := cmd } s = edge p s := by
  by_cases hrst : p.rst = true
  · exact (edge_of_rst { p with cmd := cmd } s hrst).trans (edge_of_rst p s hrst).symm
  rw [Bool.not_eq_true] at hrst
  by_cases hbusy : s.busy = true
  · exact (edge_of_busy (p := { p with cmd := cmd }) hrst hseen hbusy).trans (edge_of_busy hrst hseen hbusy).symm
  rw [Bool.not_eq_true] at hbusy
  have hvalid : p.cmdValid = false := by simpa [hrst, hbusy] using h
  exact (edge_of_no_offer (p := { p with cmd := cmd }) hrst hseen hbusy hvalid).trans
    (edge_of_no_offer hrst hseen hbusy hvalid).symm

/-- Settles O55: `cmd_ready` shows that the block is idle, and an edge looks at the word only where it accepts it. -/
theorem handshakeAcceptsExactlyWhenReady : Obligations.HandshakeAcceptsExactlyWhenReady := by
  intro p anything s hseen
  rw [outputs_cmdReady_iff]
  refine ⟨fun ⟨hrst, hvalid, hbusy⟩ => ?_, edge_cmd_irrelevant hseen, fun ⟨hrst, hvalid, hbusy⟩ => ?_⟩
  · exact ⟨_, edge_of_accepting hrst hseen hbusy hvalid, rfl, rfl, rfl⟩
  · exact edge_of_no_offer hrst hseen hbusy hvalid

/-! The lanes of `frame_o` (10_state.md R35). -/

/-- A byte joined at the end moves the lanes before it up by 8 bits. -/
theorem lane_append {n : Nat} (x : BitVec n) (b : Byte) (k : Nat) :
    (x ++ b).extractLsb' (k + 8) 8 = x.extractLsb' k 8 := by
  rw [BitVec.extractLsb'_append_eq_of_le (Nat.le_add_left 8 k), Nat.add_sub_cancel]

/-- Eight bytes joined, the first in the most significant lane. -/
theorem lanes_of_bytes (b0 b1 b2 b3 b4 b5 b6 b7 : Byte) :
    let f := b0 ++ b1 ++ b2 ++ b3 ++ b4 ++ b5 ++ b6 ++ b7
    f.extractLsb' 56 8 = b0 ∧ f.extractLsb' 48 8 = b1 ∧ f.extractLsb' 40 8 = b2 ∧ f.extractLsb' 32 8 = b3 ∧
    f.extractLsb' 24 8 = b4 ∧ f.extractLsb' 16 8 = b5 ∧ f.extractLsb' 8 8 = b6 ∧ f.extractLsb' 0 8 = b7 := by
  refine ⟨?_, ?_, ?_, ?_, ?_, ?_, ?_, ?_⟩ <;> repeat rw [lane_append]
  · exact BitVec.extractLsb'_eq_self
  all_goals exact BitVec.extractLsb'_append_eq_right

/-- `FB[i]` stands in the lane of 8 bits that begins at bit 56 - 8 i. -/
theorem frameBits_lane (s : State) (i : Fin 8) : (frameBits s).extractLsb' (56 - 8 * i.val) 8 = fbByte s i := by
  obtain ⟨h0, h1, h2, h3, h4, h5, h6, h7⟩ := lanes_of_bytes (fbByte s 0) (fbByte s 1) (fbByte s 2) (fbByte s 3)
    (fbByte s 4) (fbByte s 5) (fbByte s 6) (fbByte s 7)
  fin_cases i
  exacts [h0, h1, h2, h3, h4, h5, h6, h7]

/-- Settles O56: the ports of an idle block field by field, and those of a busy one. -/
theorem outputPortsShowTheIdleState : Obligations.OutputPortsShowTheIdleState := by
  refine fun anything s => ⟨fun hbusy => ?_, outputs_of_busy anything⟩
  have hbit : ∀ b : Bool, BitVec.ofBool b = if b then 1#1 else 0#1 := by decide
  rw [outputs_of_not_busy anything hbusy]
  exact ⟨rfl, rfl, rfl, rfl, rfl, rfl, rfl, hbit s.fvalid, hbit s.eany, frameBits_lane s⟩

/-- A slice of 16 bits is its two bytes. -/
theorem extractLsb'_sixteen (f : BitVec 64) (n : Nat) :
    f.extractLsb' n 16 = f.extractLsb' (n + 8) 8 ++ f.extractLsb' n 8 := by
  rw [BitVec.extractLsb'_append_extractLsb'_eq_extractLsb' rfl]

/-- Settles O57: the lanes hold the frame of the latches; the fields are stored high byte first, the checksum low byte first. -/
theorem frameOutReadsFields : Obligations.FrameOutReadsFields := by
  intro anything s hinv hvalid f c
  obtain ⟨haddr, hfunc, hsahi, hsalo, hwhi, hwlo, hclo, hchi⟩ := fbByte_of_frameBytes (hinv.frame hvalid)
  have hf : f = frameBits s := congrArg Outputs.frameO (outputs_of_not_busy anything hinv.idle.1)
  have lane (i : Fin 8) : f.extractLsb' (56 - 8 * i.val) 8 = fbByte s i := hf ▸ frameBits_lane s i
  have h2 : f.extractLsb' 40 8 = hiByte s.saddr := (lane 2).trans hsahi
  have h3 : f.extractLsb' 32 8 = loByte s.saddr := (lane 3).trans hsalo
  have h4 : f.extractLsb' 24 8 = hiByte s.wcnt := (lane 4).trans hwhi
  have h5 : f.extractLsb' 16 8 = loByte s.wcnt := (lane 5).trans hwlo
  have h6 : f.extractLsb' 8 8 = loByte c := (lane 6).trans hclo
  have h7 : f.extractLsb' 0 8 = hiByte c := (lane 7).trans hchi
  refine ⟨(lane 0).trans haddr, (lane 1).trans hfunc, ?_, ?_, h6, h7, ?_⟩
  · rw [extractLsb'_sixteen, h2, h3, hiByte_append_loByte]
  · rw [extractLsb'_sixteen, h4, h5, hiByte_append_loByte]
  · rw [extractLsb'_sixteen, h6, h7, loByte, hiByte]

/-! Several instances (20_memory.md R62). -/

/-- A command reaches the block it is issued to and no other. -/
theorem commandAt_getElem? (j k : Nat) (cmd : Word) (blocks : List State) :
    (commandAt j cmd blocks)[k]? = if j = k then blocks[k]?.map (afterCommand cmd) else blocks[k]? := by
  rw [commandAt, List.getElem?_modify]
  split <;> simp

/-- Settles O58: by induction on the interleaving, each command a step of the block it is issued to. -/
theorem instancesShareNothing : Obligations.InstancesShareNothing := by
  intro l blocks k
  induction l generalizing blocks with
  | nil => simp [interleaved, wordsFor]
  | cons jc l ih =>
    obtain ⟨j, cmd⟩ := jc
    have hfirst : interleaved ((j, cmd) :: l) blocks = interleaved l (commandAt j cmd blocks) := rfl
    rw [hfirst, ih, commandAt_getElem?]
    by_cases hj : j = k
    · simp [wordsFor, hj, Function.comp_def]
    · simp [wordsFor, hj]

end Sys2Proof.Machine
end
